-- ==== Sys2Proof/Word.lean ====
section
/-! DEFINITION. The word types of the block and their plainest constants (spec/00_scope.md R10, R11, R12).

Every value of the block is unsigned. The sum `a +64 b` of R11 is `a + b` on `Word`, the exclusive or is `a ^^^ b`, the rotation
`rotr64(w, n)` of R12 is `w.rotateRight n`; `Laws/Word.lean` proves each equal to the arithmetic formula the spec prints. -/

namespace Sys2Proof

/-- A byte: an unsigned integer in [0, 255] (R10). -/
abbrev Byte := BitVec 8

/-- A word: an unsigned integer in [0, 2^64 - 1] (R10). -/
abbrev Word := BitVec 64

/-- `u32`: an unsigned integer in [0, 2^32 - 1] (R10). -/
abbrev U32 := BitVec 32

/-- `ALL_ONES` = 2^64 - 1 (R11). -/
abbrev ALL_ONES : Word := 0xFFFFFFFFFFFFFFFF#64

end Sys2Proof
end

