-- ==== Sys2Proof/Machine/Codec.lean ====
section
/-! DEFINITION. The byte-order codecs of the block (spec/00_scope.md R13, R14; spec/20_memory.md R51, R52).

A byte sequence is read through a view `f : Nat → Byte` (`f i` is byte `i`); a codec that assembles a value names the index of the
first of its bytes, as `MemRead(BUF+i, n)` does in R15. -/

namespace Sys2Proof.Machine

/-- `LE64` of the 8 bytes at index `a` (R13): least significant byte at the lowest index. -/
def le64 (f : Nat → Byte) (a : Nat) : Word :=
  f (a + 7) ++ f (a + 6) ++ f (a + 5) ++ f (a + 4) ++ f (a + 3) ++ f (a + 2) ++ f (a + 1) ++ f a

/-- Byte `k` of `toLE64(w)` (R13): `w[8k+7:8k]`. -/
def leByte (w : Word) (k : Nat) : Byte := w.extractLsb' (8 * k) 8

/-- `toLE64(w)` (R13): the 8-byte sequence whose byte `k` is `w[8k+7:8k]`. -/
def toLE64 (w : Word) : List Byte := (List.range 8).map (leByte w)

/-- `BE32` of the 4 bytes at index `a` (R14): most significant byte at the lowest index. -/
def be32 (f : Nat → Byte) (a : Nat) : U32 := f a ++ f (a + 1) ++ f (a + 2) ++ f (a + 3)

/-- Byte `k` of `toBE32(n)` (R14): `n[31:24], n[23:16], n[15:8], n[7:0]` for k = 0, 1, 2, 3. -/
def beByte (n : U32) (k : Nat) : Byte := n.extractLsb' (8 * (3 - k)) 8

/-- `toBE32(n)` (R14). -/
def toBE32 (n : U32) : List Byte := (List.range 4).map (beByte n)

/-- The view of a byte list: byte `i` of it, 0x00 past its end. -/
def listView (bs : List Byte) (i : Nat) : Byte := bs.getD i 0#8

/-- The view of a byte vector: byte `i` of it, 0x00 past its end. -/
def vecView {n : Nat} (v : Vector Byte n) (i : Nat) : Byte := if h : i < n then v[i] else 0#8

/-- The view of a word vector: byte `i` of its words laid out in ascending index order, each little-endian (R53). -/
def wordsView {n : Nat} (v : Vector Word n) (i : Nat) : Byte := if h : i / 8 < n then leByte v[i / 8] (i % 8) else 0#8

/-- The first `n` bytes of a view, as a sequence. -/
def bytesOf (f : Nat → Byte) (n : Nat) : List Byte := (List.range n).map f

end Sys2Proof.Machine
end

