-- ==== Sys2Proof/Config.lean ====
section
/-! DEFINITION. The parameters of the block (spec/00_scope.md R7, R8).

R7's parameters are fixed by the source document and not configurable; R8's are this spec's decisions ("a model may carry them as
configuration fields with these defaults"). PORT_MAP (D20) is used by no rule and has no field here; N_INSTANCES (D24) is an
argument of `Machine.Platform.reset`, whose default is `Config.nInstances`. The block has no value that an implementation leaves
undefined after an operation, so Config holds no free value (INVENTORY.md, "What the manual leaves open"). -/

namespace Sys2Proof

/-- CMD_DECODE (R8, D6): the command code of DECODE. -/
def Config.cmdDecode : Byte := 0x01#8

/-- CMD_COMPRESS (R8, D6): the command code of COMPRESS. -/
def Config.cmdCompress : Byte := 0x02#8

/-- FRAME_LEN (R7): the length in bytes of a legal input frame. -/
abbrev Config.frameLen : Nat := 213

/-- OUT_BYTES (R7): the bytes of the serialised result. -/
abbrev Config.outBytes : Nat := 64

/-- BLOCK_BYTES (R7): the bytes of the message block. -/
abbrev Config.blockBytes : Nat := 128

/-- N_INSTANCES (R8, D24): OPEN, default 1. -/
def Config.nInstances : Nat := 1

end Sys2Proof
end

