-- ==== Sys2Proof/Syntax.lean ====
section
/-! DEFINITION. Syntax: what crosses the block's ports.

`Instr` has one constructor per row of spec/opcode_table.json: the two commands (DECODE, COMPRESS) and the two data formats (FRAME213,
RESULT64). The moves of the host agent (spec/42_host_ports.md R160), which have no binary encoding (R87), are `HostMove`. -/

namespace Sys2Proof

/-- The encodings with a bit-exact form that cross a port (R70); the port an item travels on tells its format. -/
inductive Format where
  | cmd8      -- one command code, written to CMD (R71)
  | frame213  -- the byte sequence presented for decoding (R74)
  | result64  -- the result frame (R82)
deriving DecidableEq, Repr

/-- The five typed operands, in the source document's order (R110): the decoder's result and the engine's operands. -/
structure Operands where
  rounds : U32
  h      : Vector Word 8
  block  : Vector Byte 128
  t      : Vector Word 2
  flag   : Bool
deriving DecidableEq, Repr

/-- The fields of a 213-byte input frame (R74). The last field is the whole flag BYTE, legal values 0x00 and 0x01 only (R79). -/
structure Frame where
  rounds   : U32
  h        : Vector Word 8
  block    : Vector Byte 128
  t        : Vector Word 2
  flagByte : Byte
deriving DecidableEq, Repr

/-- One constructor per row of spec/opcode_table.json. -/
inductive Instr where
  /-- DECODE, command code 0x01 (R72, R100). -/
  | decode
  /-- COMPRESS, command code 0x02 (R72, R120). -/
  | compress
  /-- FRAME213: an input frame, presented by the host (R74, R88 `loadframe`). -/
  | frame213 (x : Frame)
  /-- RESULT64: a result frame of eight words, read out by the host (R82, R88 `readout`). -/
  | result64 (res : Vector Word 8)
deriving DecidableEq, Repr

/-- The format an instruction's words have (R70). -/
def Instr.format : Instr → Format
  | .decode => .cmd8
  | .compress => .cmd8
  | .frame213 _ => .frame213
  | .result64 _ => .result64

/-- The registers a host read can name, each with its index range (R164). OP, V, M, R and CMD are not among them (R160). -/
inductive ReadPort where
  | ibuf (i : Fin 213)
  | ilen
  | rounds
  | h (i : Fin 8)
  | blk (j : Fin 128)
  | t (j : Fin 2)
  | flag
  | obuf (j : Fin 64)
  | status
  | errInfo
deriving DecidableEq, Repr

/-- The value a read hands back, as the number it is (R54, R164). -/
inductive Reply where
  | byte (b : Byte)
  | u32 (n : U32)
  | word (w : Word)
  | bit (b : Bool)
deriving DecidableEq, Repr

/-- The moves of the host agent. The first ten are the table of R160; the last three are the pseudo-instructions of R88 that the
model runs as one item: `wait` (the polling loop of R168), `present` (`loadframe`) and `readout`. The host cannot express an index
outside a register's range, a value outside a register's type, a write of OBUF, STATUS, ERR_INFO or hidden state, or a read of
CMD (R170). -/
inductive HostMove where
  | wrIbuf (i : Fin 213) (b : Byte)
  | wrIlen (n : U32)
  | wrRounds (n : U32)
  | wrH (i : Fin 8) (w : Word)
  | wrBlk (j : Fin 128) (b : Byte)
  | wrT (j : Fin 2) (w : Word)
  | wrFlag (b : Bool)
  | rd (p : ReadPort)
  | issue (c : Byte)
  | reset
  | wait
  /-- Present a byte sequence: its length to ILEN, its first 213 bytes to IBUF (R22, R88 `loadframe`). -/
  | present (bytes : List Byte)
  /-- Read the 64 bytes of OBUF in ascending order (R88 `readout`). `bits` are the 64 bytes of the RESULT64 item as the host names
  it; the row constrains no bit of it, and the block alone drives the value handed back. -/
  | readout (bits : List Byte)
deriving DecidableEq, Repr

/-- The two kinds of agent that take steps on one instance (R6). -/
inductive Agent where
  | host
  | engine
deriving DecidableEq, Repr

end Sys2Proof
end

