-- ==== Sys2Proof/WellFormed.lean ====
section
/-! DEFINITION. Well-formedness: which terms of the syntax stand for an item the spec admits.

A frame is legal when its flag byte is 0x00 or 0x01 (R79, R80; its length is 213 by its type). A presented sequence is shorter than
2^32 bytes (R22), and the item a readout names has 64 bytes (R82). -/

namespace Sys2Proof

/-- R79, R80 (b): the flag byte of a legal frame is 0x00 or 0x01, all eight bits compared. -/
def Frame.wellFormed (x : Frame) : Bool := x.flagByte == 0x00#8 || x.flagByte == 0x01#8

/-- The instructions the formats of R70 admit. The commands have no operand (R71); every result frame is well formed (R82). -/
def Instr.wellFormed : Instr → Bool
  | .decode => true
  | .compress => true
  | .frame213 x => x.wellFormed
  | .result64 _ => true

/-- The moves a host can make: a sequence of 2^32 bytes or more cannot be presented (R22), a result frame has 64 bytes (R82). Every
other move is well formed by its type (R170). -/
def HostMove.wellFormed : HostMove → Bool
  | .wrIbuf _ _ => true
  | .wrIlen _ => true
  | .wrRounds _ => true
  | .wrH _ _ => true
  | .wrBlk _ _ => true
  | .wrT _ _ => true
  | .wrFlag _ => true
  | .rd _ => true
  | .issue _ => true
  | .reset => true
  | .wait => true
  | .present bytes => decide (bytes.length < 2 ^ 32)
  | .readout bits => decide (bits.length = 64)

end Sys2Proof
end

