-- ==== Sys2Proof/Decode.lean ====
section
/-! DEFINITION. Decoding and encoding of the formats of spec/30_encoding.md (R70 to R82), total on any bytes and rejecting by name. -/

namespace Sys2Proof

open Sys2Proof.Machine

/-- Why a byte sequence is no item of its format. -/
inductive Reject where
  /-- The 254 reserved command codes (R73): "reserved command code". -/
  | reservedCommandCode (c : Byte)
  /-- A command is always 8 bits (R71, R86). -/
  | commandLength (n : Nat)
  /-- R80 (a): the sequence is not 213 bytes long; tested first. -/
  | lengthError (n : Nat)
  /-- R80 (b): the length is 213 and byte 212 is neither 0x00 nor 0x01. -/
  | flagError (b : Byte)
  /-- A result is always 64 bytes (R82, R86). -/
  | resultLength (n : Nat)
deriving DecidableEq, Repr

/-- The command a code selects (R72, match on all eight bits); `none` for the reserved codes (R73). -/
def decodeCommand (c : Byte) : Option Instr :=
  if c = Config.cmdDecode then some .decode
  else if c = Config.cmdCompress then some .compress
  else none

/-- The fields of a frame at their byte offsets (R74 to R78). The flag byte is kept whole (R79). -/
def parseFrame (f : Nat → Byte) : Frame where
  rounds := be32 f 0
  h := Vector.ofFn fun i => le64 f (4 + 8 * i.val)
  block := Vector.ofFn fun j => f (68 + j.val)
  t := Vector.ofFn fun j => le64 f (196 + 8 * j.val)
  flagByte := f 212

/-- The eight words of a result frame (R82, R53). -/
def parseResult (f : Nat → Byte) : Vector Word 8 := Vector.ofFn fun i => le64 f (8 * i.val)

/-- The decoder: the item of format `fmt` that a byte sequence is, or the reason it is none. -/
def decode (fmt : Format) (bytes : List Byte) : Except Reject Instr :=
  match fmt with
  | .cmd8 =>
    match bytes with
    | [c] =>
      match decodeCommand c with
      | some i => .ok i
      | none => .error (.reservedCommandCode c)
    | _ => .error (.commandLength bytes.length)
  | .frame213 =>
    if bytes.length ≠ 213 then .error (.lengthError bytes.length)
    else
      let x := parseFrame (listView bytes)
      if x.wellFormed then .ok (.frame213 x) else .error (.flagError x.flagByte)
  | .result64 =>
    if bytes.length ≠ 64 then .error (.resultLength bytes.length)
    else .ok (.result64 (parseResult (listView bytes)))

/-- Byte `i` of the frame of `x`, by the layout table of R74. -/
def frameByte (x : Frame) (i : Nat) : Byte :=
  if i < 4 then beByte x.rounds i
  else if i < 68 then wordsView x.h (i - 4)
  else if i < 196 then vecView x.block (i - 68)
  else if i < 212 then wordsView x.t (i - 196)
  else x.flagByte

/-- The frame encoder (R81): the 213 bytes of the frame of `x`. -/
def frameBytes (x : Frame) : List Byte := bytesOf (frameByte x) 213

/-- The result frame (R82): `toLE64(res[0]) … toLE64(res[7])`. -/
def resultBytes (res : Vector Word 8) : List Byte := bytesOf (wordsView res) 64

/-- The encoder: the bytes of an instruction. -/
def encode : Instr → List Byte
  | .decode => [Config.cmdDecode]
  | .compress => [Config.cmdCompress]
  | .frame213 x => frameBytes x
  | .result64 res => resultBytes res

/-- The frame that carries a five-tuple (R81): the flag byte is 0x01 if the flag is true, else 0x00. -/
def Operands.toFrame (x : Operands) : Frame where
  rounds := x.rounds
  h := x.h
  block := x.block
  t := x.t
  flagByte := if x.flag then 0x01#8 else 0x00#8

/-- The five-tuple a frame carries: the flag is true when the byte is 0x01 (R79). -/
def Frame.toOperands (x : Frame) : Operands where
  rounds := x.rounds
  h := x.h
  block := x.block
  t := x.t
  flag := x.flagByte == 0x01#8

/-- The bytes of an item whose bits are `w`, numbered as spec/opcode_table.json numbers them: frame bit `8*i + k` is bit `k` of
byte `i`. -/
def bytesOfBits (n w : Nat) : List Byte := bytesOf (fun i => BitVec.ofNat 8 (w >>> (8 * i))) n

/-- The format of an item of `nbits` bits: the three of the table have three different widths (8, 1704, 512); anything else can only
be a sequence presented for decoding. -/
def formatOfWidth (nbits : Nat) : Format :=
  if nbits = 8 then .cmd8 else if nbits = 512 then .result64 else .frame213

/-- The instruction the decoder reads from an item of `nbits` bits whose bits are `w`. -/
def decodeTableWord (nbits w : Nat) : Option Instr :=
  match decode (formatOfWidth nbits) (bytesOfBits (nbits / 8) w) with
  | .ok i => some i
  | .error _ => none

end Sys2Proof
end

