-- ==== Sys2Proof/Machine/Mixing.lean ====
section
/-! DEFINITION. The compression function F and the functions it is built from (spec/41_compress.md R124 to R131), as pure functions of
the five operands (spec/00_scope.md R9). -/

namespace Sys2Proof.Machine

/-- The working vector V[0..16) (R32). -/
abbrev WorkVec := Vector Word 16

/-- Message split (R124): `M[i] = LE64(BLK[8i .. 8i+8))`. -/
def messageWords (block : Vector Byte 128) : Vector Word 16 := Vector.ofFn fun i => le64 (vecView block) (8 * i.val)

/-- Working-vector initialisation (R125). -/
def initV (x : Operands) : WorkVec := #v[
  x.h[0], x.h[1], x.h[2], x.h[3], x.h[4], x.h[5], x.h[6], x.h[7],
  IV[0], IV[1], IV[2], IV[3],
  x.t[0] ^^^ IV[4], x.t[1] ^^^ IV[5],
  if x.flag then IV[6] ^^^ ALL_ONES else IV[6],
  IV[7]]

/-- The mixing primitive G (R127): eight lines, each reading what the lines before it left. -/
def mixG (a b c d : Fin 16) (x y : Word) (v : WorkVec) : WorkVec :=
  let v := v.set a (v[a] + v[b] + x)
  let v := v.set d ((v[d] ^^^ v[a]).rotateRight 32)
  let v := v.set c (v[c] + v[d])
  let v := v.set b ((v[b] ^^^ v[c]).rotateRight 24)
  let v := v.set a (v[a] + v[b] + y)
  let v := v.set d ((v[d] ^^^ v[a]).rotateRight 16)
  let v := v.set c (v[c] + v[d])
  v.set b ((v[b] ^^^ v[c]).rotateRight 63)

/-- The column step (R126): four applications of G on the columns, with `M[s[0]]` to `M[s[7]]`. -/
def columnStep (m : Vector Word 16) (s : Vector (Fin 16) 16) (v : WorkVec) : WorkVec :=
  let v := mixG 0 4 8 12 m[s[0]] m[s[1]] v
  let v := mixG 1 5 9 13 m[s[2]] m[s[3]] v
  let v := mixG 2 6 10 14 m[s[4]] m[s[5]] v
  mixG 3 7 11 15 m[s[6]] m[s[7]] v

/-- The diagonal step (R126): four applications of G on the diagonals, with `M[s[8]]` to `M[s[15]]`. -/
def diagonalStep (m : Vector Word 16) (s : Vector (Fin 16) 16) (v : WorkVec) : WorkVec :=
  let v := mixG 0 5 10 15 m[s[8]] m[s[9]] v
  let v := mixG 1 6 11 12 m[s[10]] m[s[11]] v
  let v := mixG 2 7 8 13 m[s[12]] m[s[13]] v
  mixG 3 4 9 14 m[s[14]] m[s[15]] v

/-- `ROUND(r)` (R126): the whole column step, then the diagonal step. -/
def mixRound (m : Vector Word 16) (r : Nat) (v : WorkVec) : WorkVec :=
  diagonalStep m (schedule r) (columnStep m (schedule r) v)

/-- The round loop (R130): rounds 0, 1, ..., n - 1 in ascending order, none when n = 0. -/
def mixRounds (m : Vector Word 16) (v : WorkVec) : Nat → WorkVec
  | 0 => v
  | n + 1 => mixRound m n (mixRounds m v n)

/-- The working vector after the last round (R120). -/
def finalV (x : Operands) : WorkVec := mixRounds (messageWords x.block) (initV x) x.rounds.toNat

/-- Final XOR (R128): `res[i] = H[i] XOR V[i] XOR V[i+8]`. -/
def finalXor (h : Vector Word 8) (v : WorkVec) : Vector Word 8 := Vector.ofFn fun i => h[i] ^^^ v[i.val] ^^^ v[i.val + 8]

/-- The compression function `F(ROUNDS, H, BLK, T, FLAG)` (R120): the eight result words. -/
def compressF (x : Operands) : Vector Word 8 := finalXor x.h (finalV x)

end Sys2Proof.Machine
end

