-- ==== Sys2Proof/Machine/State.lean ====
section
/-! DEFINITION. The state of one instance (spec/10_state.md R20), of the host agent that drives it, and the reset state (R38).

The byte buffers are address spaces of their own (R50), each a list of cells in one canonical form (`Memory.wf`); a byte that is not
listed reads as 0x00, the reset contents the spec gives (R38). -/

namespace Sys2Proof.Machine

/-- The contents of one byte buffer: (index, byte) pairs. -/
abbrev Cells := List Host.Cell

/-- The three byte-addressed buffers (R50). An address is a pair of a space and an index in it. -/
inductive Space where
  | ibuf
  | blk
  | obuf
deriving DecidableEq, Repr

/-- The three buffers' contents (R21, R25, R28). -/
structure Memory where
  ibuf : Cells
  blk  : Cells
  obuf : Cells
deriving DecidableEq, Repr

/-- The operation in progress, the register OP of 2 bits: 0 = none, 1 = DECODE, 2 = COMPRESS (R34). -/
inductive Operation where
  | none
  | decode
  | compress
deriving DecidableEq, Repr

/-- The state: every register of R20, and below them the model's own fields for the host agent (R6), which are no registers of
the block. -/
structure State where
  /-- IBUF, BLK and OBUF (R21, R25, R28). -/
  mem : Memory
  /-- ILEN (R22). -/
  ilen : U32
  /-- ROUNDS (R23). -/
  rounds : U32
  /-- H[0..8) (R24). -/
  h : Vector Word 8
  /-- T[0..2) (R26): low, high. -/
  t : Vector Word 2
  /-- FLAG (R27): false = 0, true = 1. -/
  flag : Bool
  /-- STATUS (R29): ST in bits 1:0, ERR in bits 3:2. -/
  status : U32
  /-- ERR_INFO (R30). -/
  errInfo : U32
  /-- OP (R34). -/
  op : Operation
  /-- V[0..16) (R32), hidden. -/
  v : Vector Word 16
  /-- M[0..16) (R33), hidden. -/
  m : Vector Word 16
  /-- R (R34), hidden. -/
  r : U32
  /-- The model's own: the moves the host has still to make, in program order (R61). -/
  pending : List HostMove
  /-- The model's own: what the block has handed back to the host's reads, oldest first (R164). -/
  received : List Reply
  /-- The model's own: who moves where both agents can, one entry a contested step (R61); after the last, the engine (R209). -/
  turns : List Agent
deriving DecidableEq, Repr

/-- Why the machine stops with a fault. -/
inductive Fault where
  /-- Raised by the engine's completion step when ST = BUSY and OP = 0: "OP has no other value while ST = BUSY" (R167), so no
  state reached from reset raises it. Safe: the model stops where the spec gives no rule. -/
  | busyWithoutOperation
deriving DecidableEq, Repr

/-- Why the machine refuses. -/
inductive Refusal where
  /-- An instruction whose meaning is not written yet; no arm of `exec` answers it in this model. Safe. -/
  | notModelled (mnemonic : String)
  /-- Answered by the host move `present` for a sequence of 2^32 bytes or more, which "cannot be presented" (R22; spec/93 U8: refuse
  at the adapter). Safe. -/
  | sequenceTooLong
  /-- Answered by the host move `readout` for an item that is not 64 bytes long, which is no RESULT64 (R82, R86) and so no move ("these
  are not moves", R170). Safe. -/
  | notAHostMove
deriving DecidableEq, Repr

/-- The memory right after reset: every byte of IBUF, BLK and OBUF is 0x00 (R38), so nothing is listed. -/
def Memory.reset : Memory where
  ibuf := []
  blk := []
  obuf := []

/-- The machine right after reset (R38). V, M and R are "unspecified" there: zero is the model's choice (notes/assumptions/1.md). The
host has nothing to do yet, has received nothing, and no turn is written down. -/
def State.reset : State where
  mem := Memory.reset
  ilen := 0#32
  rounds := 0#32
  h := Vector.replicate 8 0#64
  t := Vector.replicate 2 0#64
  flag := false
  status := 0#32
  errInfo := 0#32
  op := .none
  v := Vector.replicate 16 0#64
  m := Vector.replicate 16 0#64
  r := 0#32
  pending := []
  received := []
  turns := []

end Sys2Proof.Machine
end

