-- ==== Sys2Proof/Machine/Flags.lean ====
section
/-! DEFINITION. STATUS and ERR_INFO: the only status the block has (spec/10_state.md R29, R30, R36; spec/30_encoding.md R83, R84). The
engine's arithmetic sets no carry, overflow, zero or sign flag (R36). -/

namespace Sys2Proof.Machine

/-- The values of the field ST (R29). -/
inductive St where
  | idle
  | busy
  | ok
  | err
deriving DecidableEq, Repr

/-- The code of ST in STATUS bits 1:0 (R29). -/
def stCode : St → BitVec 2
  | .idle => 0#2
  | .busy => 1#2
  | .ok => 2#2
  | .err => 3#2

/-- The two errors, both the decoder's, each with the number it reports (R180, R181, R182). -/
inductive DecodeError where
  /-- The byte count received is not 213; it reports ILEN (R181). -/
  | lengthError (n : U32)
  /-- The flag byte is neither 0 nor 1; it reports the byte (R182). -/
  | flagError (b : Byte)
deriving DecidableEq, Repr

/-- The code of an error in STATUS bits 3:2 (R29, R181, R182): 1 = LengthError, 2 = FlagError. -/
def errCode : DecodeError → BitVec 2
  | .lengthError _ => 1#2
  | .flagError _ => 2#2

/-- The number an error leaves in ERR_INFO (R30, R84): ILEN, or the byte zero-extended. -/
def errValue : DecodeError → U32
  | .lengthError n => n
  | .flagError b => b.setWidth 32

/-- `STATUS = zext_32(ERR || ST)` (R83). -/
def statusWord (err : BitVec 2) (st : BitVec 2) : U32 := (err ++ st).setWidth 32

/-- The code of OP (R34): 0 = none, 1 = DECODE, 2 = COMPRESS. -/
def opCode : Operation → BitVec 2
  | .none => 0#2
  | .decode => 1#2
  | .compress => 2#2

/-- The field ST, STATUS bits 1:0 (R29). -/
def State.st (s : State) : BitVec 2 := s.status.extractLsb' 0 2

/-- The field ERR, STATUS bits 3:2 (R29). -/
def State.err (s : State) : BitVec 2 := s.status.extractLsb' 2 2

/-- ST = BUSY: an operation is in progress (R29). -/
def State.busy (s : State) : Bool := s.st == stCode .busy

/-- Write the field ST and leave every other bit of STATUS as it was: what the issue step does (R165). -/
def State.setSt (st : St) (s : State) : State :=
  { s with status := s.status.extractLsb' 2 30 ++ stCode st }

/-- What a completion step writes, all in one step (R29, R30, R34, R104, R184): STATUS as a whole (R36), ERR_INFO, and OP cleared. -/
def State.setOutcome (err : BitVec 2) (st : St) (info : U32) (s : State) : State :=
  { s with status := statusWord err (stCode st), errInfo := info, op := .none }

end Sys2Proof.Machine
end

