-- ==== Sys2Proof/Machine/Ops.lean ====
section
/-! DEFINITION. The named operations over the buffers and registers, shared by every meaning: buffer access (spec/20_memory.md R50,
spec/00_scope.md R15), completion with success or with an error (spec/60_exceptions.md R184), the busy hold (spec/42_host_ports.md
R166), reset (spec/70_reset_and_hazards.md R200) and handing a value back to the host (R164). -/

namespace Sys2Proof.Machine

/-- What a byte that no cell lists reads as: the reset contents of every buffer (R38). -/
def unlisted : Byte := 0x00#8

/-- The number of bytes of a buffer (R50); its indices are 0 .. size - 1. -/
def Space.size : Space → Nat
  | .ibuf => 213
  | .blk => 128
  | .obuf => 64

/-- Read one byte of a cell list. -/
def readCells : Cells → Nat → Byte
  | [], _ => unlisted
  | (k, b) :: rest, a => if k = a then b else readCells rest a

/-- Put a cell at its place in the rising order of indices. -/
def insertCell (a : Nat) (b : Byte) : Cells → Cells
  | [] => [(a, b)]
  | (k, c) :: rest => if a < k then (a, b) :: (k, c) :: rest else (k, c) :: insertCell a b rest

/-- Drop every cell of an index. -/
def eraseCell (a : Nat) : Cells → Cells
  | [] => []
  | (k, c) :: rest => if k = a then eraseCell a rest else (k, c) :: eraseCell a rest

/-- Write one byte of a cell list. Writing the value an unlisted byte reads as removes the cell. -/
def writeCells (m : Cells) (a : Nat) (b : Byte) : Cells :=
  if b = unlisted then eraseCell a m else insertCell a b (eraseCell a m)

/-- The canonical form of a cell list whose indices are at least `lo` and below `size`: indices strictly rising, no cell equal to
what an unlisted byte reads as. -/
def cellsWf (size : Nat) : Nat → Cells → Bool
  | _, [] => true
  | lo, (k, b) :: rest => decide (lo ≤ k) && decide (k < size) && b != unlisted && cellsWf size (k + 1) rest

/-- The cells of one buffer. -/
def Memory.cells (m : Memory) : Space → Cells
  | .ibuf => m.ibuf
  | .blk => m.blk
  | .obuf => m.obuf

/-- Replace the cells of one buffer. -/
def Memory.setCells (m : Memory) (sp : Space) (c : Cells) : Memory :=
  match sp with
  | .ibuf => { m with ibuf := c }
  | .blk => { m with blk := c }
  | .obuf => { m with obuf := c }

/-- The canonical form of the memory, one buffer each (R50). -/
def Memory.wf (m : Memory) : Bool :=
  cellsWf (Space.size .ibuf) 0 m.ibuf && cellsWf (Space.size .blk) 0 m.blk && cellsWf (Space.size .obuf) 0 m.obuf

/-- `BUF[i]` (R15). -/
def Memory.read (m : Memory) (sp : Space) (a : Nat) : Byte := readCells (m.cells sp) a

/-- `BUF[i] <- b` (R15). -/
def Memory.write (m : Memory) (sp : Space) (a : Nat) (b : Byte) : Memory := m.setCells sp (writeCells (m.cells sp) a b)

/-- `MemRead(BUF+a, n)` (R15): the bytes BUF[a], ..., BUF[a+n-1]. -/
def Memory.readBytes (m : Memory) (sp : Space) (a n : Nat) : List Byte := bytesOf (fun k => m.read sp (a + k)) n

/-- `MemWrite(BUF+a, n, bytes)` (R15): the bytes go to BUF[a], BUF[a+1], ... -/
def Memory.writeBytes (m : Memory) (sp : Space) (a : Nat) : List Byte → Memory
  | [] => m
  | b :: bs => (m.write sp a b).writeBytes sp (a + 1) bs

/-- End an operation without error (R104, R137): ST = OK, ERR = none, ERR_INFO = 0, OP = 0. -/
def State.completeOk (s : State) : State := s.setOutcome 0#2 .ok 0#32

/-- TAKING AN ERROR, `raise` (R184): ST = ERR, ERR = the code, ERR_INFO = the number, OP = 0, and nothing else. Nothing is saved and
nothing is vectored, so there is no return from an error (R186): every host move is enabled as before. -/
def State.raise (e : DecodeError) (s : State) : State := s.setOutcome (errCode e) .err (errValue e)

/-- The issue step of a legal command (R165): OP and the ST field, nothing else. -/
def State.startOperation (op : Operation) (s : State) : State := { s.setSt .busy with op := op }

/-- The busy hold (R166): while ST = BUSY a held move has no step, so it changes nothing. -/
def State.unlessBusy (f : State → State) (s : State) : State := if s.busy then s else f s

/-- RESET (R200): every register of R20 to its reset value. The host agent's own fields are no registers of the block. -/
def State.resetRegisters (s : State) : State :=
  { State.reset with pending := s.pending, received := s.received, turns := s.turns }

/-- Hand values back to the host (R164). -/
def State.reply (vs : List Reply) (s : State) : State := { s with received := s.received ++ vs }

/-- Write a presented byte sequence (R22, R88 `loadframe`): its length to ILEN, its first 213 bytes to IBUF. Bytes of IBUF past the
end of a shorter sequence keep their values. -/
def State.loadSequence (bytes : List Byte) (s : State) : State :=
  { s with mem := s.mem.writeBytes .ibuf 0 (bytes.take 213), ilen := BitVec.ofNat 32 bytes.length }

end Sys2Proof.Machine
end

