-- ==== Sys2Proof/Machine/Operands.lean ====
section
/-! DEFINITION. The operand registers as one five-tuple (spec/40_decode.md R110). A command has no operand field (R71): its operands are
ROUNDS, H, BLK, T and FLAG, which DECODE writes and COMPRESS reads. -/

namespace Sys2Proof.Machine

/-- The five-tuple the operand registers hold (R110). -/
def State.operands (s : State) : Operands where
  rounds := s.rounds
  h := s.h
  block := Vector.ofFn fun j => s.mem.read .blk j.val
  t := s.t
  flag := s.flag

/-- Write all five operand registers (R103): every previous content is overwritten. -/
def State.setOperands (x : Operands) (s : State) : State :=
  { s with
    rounds := x.rounds
    h := x.h
    mem := s.mem.writeBytes .blk 0 x.block.toList
    t := x.t
    flag := x.flag }

end Sys2Proof.Machine
end

