-- ==== Sys2Proof/Machine/Engine.lean ====
section
/-! DEFINITION. The COMPRESS operation (spec/41_compress.md R120, R137), and the finer stepping of it that R138 allows. -/

namespace Sys2Proof.Machine

/-- The state a COMPRESS leaves (R120, R137): M, V and R as the loop leaves them, the result frame in OBUF (R129) and the status, and
nothing else. -/
def State.compressed (s : State) : State :=
  State.completeOk
    { s with
      m := messageWords s.operands.block
      v := finalV s.operands
      r := s.rounds
      mem := s.mem.writeBytes .obuf 0 (resultBytes (compressF s.operands)) }

/-- COMPRESS (R120), one atomic completion step. It never fails (R121). -/
def execCompress (s : State) : Host.Outcome State Fault Refusal := .next s.compressed

/-- The start of a COMPRESS, stepped finely (R138): M and V are loaded and R is 0 (R120). -/
def State.fineStart (s : State) : State :=
  { s with m := messageWords s.operands.block, v := initV s.operands, r := 0#32 }

/-- One round of a COMPRESS, stepped finely (R120: `ROUND(R); R <- R + 1`). -/
def State.fineRound (s : State) : State := { s with v := mixRound s.m s.r.toNat s.v, r := s.r + 1#32 }

/-- The end of a COMPRESS, stepped finely: the results are published in one step (R137, R138). -/
def State.finePublish (s : State) : State :=
  State.completeOk { s with mem := s.mem.writeBytes .obuf 0 (resultBytes (finalXor s.h s.v)) }

/-- `n` internal round steps. -/
def State.fineRounds (s : State) : Nat → State
  | 0 => s
  | n + 1 => (s.fineRounds n).fineRound

end Sys2Proof.Machine
end

