-- ==== Sys2Proof/Machine/Frames.lean ====
section
/-! DEFINITION. The two data formats as items that cross the ports: presenting an input frame (spec/30_encoding.md R74, R88 `loadframe`)
and reading out a result frame (R82, R88 `readout`). -/

namespace Sys2Proof.Machine

/-- FRAME213: the host presents the frame. Its 213 bytes go to IBUF and ILEN becomes 213 (R22, R88 `loadframe`), held while ST = BUSY
(R166). Nothing starts (R161), and no operand register is touched: the fields reach them by DECODE (R103). -/
def execFrame213 (x : Frame) (s : State) : Host.Outcome State Fault Refusal :=
  .next (s.unlessBusy (State.loadSequence (frameBytes x)))

/-- RESULT64: the host reads out the result frame. The 64 bytes of OBUF are handed back in ascending order (R82, R88 `readout`) and
nothing else changes (R58, R164). The block alone drives the frame's bits (the row constrains none of them), so what the term says
does not matter (DESIGN CHOICE, notes/assumptions/4.md). -/
def execResult64 (_res : Vector Word 8) (s : State) : Host.Outcome State Fault Refusal :=
  .next (s.reply ((s.mem.readBytes .obuf 0 64).map Reply.byte))

end Sys2Proof.Machine
end

