-- ==== Sys2Proof/Machine/InputDecoder.lean ====
section
/-! DEFINITION. The DECODE operation, the sub-block input_decoder_213byte (spec/40_decode.md R100 to R105). -/

namespace Sys2Proof.Machine

/-- DECODE (R100), one atomic completion step: the length is checked first (R101), the flag byte second (R102), and only when both
pass are the five fields written (R103) and the status set (R104). An error writes the status alone (R105). -/
def execDecode (s : State) : Host.Outcome State Fault Refusal :=
  if s.ilen ≠ 213#32 then .next (s.raise (.lengthError s.ilen))
  else
    let x := parseFrame (s.mem.read .ibuf)
    if x.wellFormed then .next ((s.setOperands x.toOperands).completeOk)
    else .next (s.raise (.flagError x.flagByte))

end Sys2Proof.Machine
end

