-- ==== Sys2Proof/Machine/HostPorts.lean ====
section
/-! DEFINITION. The host's moves (spec/42_host_ports.md R160 to R169) and the engine's completion step (R167). -/

namespace Sys2Proof.Machine

/-- WR_IBUF(i, b) (R161): that one byte of IBUF and nothing else, held while ST = BUSY. -/
def hostWrIbuf (i : Fin 213) (b : Byte) : State → State :=
  State.unlessBusy fun s => { s with mem := s.mem.write .ibuf i.val b }

/-- WR_ILEN(n) (R162). -/
def hostWrIlen (n : U32) : State → State := State.unlessBusy fun s => { s with ilen := n }

/-- WR_ROUNDS(n) (R163). -/
def hostWrRounds (n : U32) : State → State := State.unlessBusy fun s => { s with rounds := n }

/-- WR_H(i, w) (R163): one 64-bit element, whole (R57). -/
def hostWrH (i : Fin 8) (w : Word) : State → State := State.unlessBusy fun s => { s with h := s.h.set i.val w }

/-- WR_BLK(j, b) (R163). -/
def hostWrBlk (j : Fin 128) (b : Byte) : State → State :=
  State.unlessBusy fun s => { s with mem := s.mem.write .blk j.val b }

/-- WR_T(j, w) (R163). -/
def hostWrT (j : Fin 2) (w : Word) : State → State := State.unlessBusy fun s => { s with t := s.t.set j.val w }

/-- WR_FLAG(b) (R163, D26): a bit, so no FlagError can arise on this path. -/
def hostWrFlag (b : Bool) : State → State := State.unlessBusy fun s => { s with flag := b }

/-- What a read hands back (R164): the register's current value, a number (R54). -/
def State.readPort (s : State) : ReadPort → Reply
  | .ibuf i => .byte (s.mem.read .ibuf i.val)
  | .ilen => .u32 s.ilen
  | .rounds => .u32 s.rounds
  | .h i => .word s.h[i]
  | .blk j => .byte (s.mem.read .blk j.val)
  | .t j => .word s.t[j]
  | .flag => .bit s.flag
  | .obuf j => .byte (s.mem.read .obuf j.val)
  | .status => .u32 s.status
  | .errInfo => .u32 s.errInfo

/-- RD_x (R164): enabled in every state, changes nothing of the block (R58). -/
def hostRd (p : ReadPort) (s : State) : State := s.reply [s.readPort p]

/-- The operation a command starts (R165); the data formats start none. -/
def operationOf : Instr → Operation
  | .decode => .decode
  | .compress => .compress
  | .frame213 _ => .none
  | .result64 _ => .none

/-- ISSUE(c) (R165), held while ST = BUSY: a legal code sets OP and ST = BUSY; a reserved code is accepted and ignored (R73). -/
def hostIssue (c : Byte) : State → State :=
  State.unlessBusy fun s =>
    match decodeCommand c with
    | some i => s.startOperation (operationOf i)
    | none => s

/-- `loadframe` (R88) of a byte sequence: a sequence of 2^32 bytes or more cannot be presented (R22). A sequence that the decoder
reads as a legal frame is run as that instruction; any other is loaded all the same, since the checks are DECODE's (R101, R102). -/
def hostPresent (bytes : List Byte) (s : State) : Host.Outcome State Fault Refusal :=
  if 2 ^ 32 ≤ bytes.length then .refused .sequenceTooLong
  else
    match decode .frame213 bytes with
    | .ok i => exec i s
    | .error _ => .next (s.unlessBusy (State.loadSequence bytes))

/-- `readout` (R88). The item named has 64 bytes and is then a RESULT64; another length names no result frame (R82) and is no move. -/
def hostReadout (bits : List Byte) (s : State) : Host.Outcome State Fault Refusal :=
  match decode .result64 bits with
  | .ok i => exec i s
  | .error _ => .refused .notAHostMove

/-- One poll of WAIT (R168), `v <- RD_STATUS`: the loop goes on while ST = BUSY, so the move stays the host's next one. -/
def hostWait (s : State) : State :=
  let s' := hostRd .status s
  if s.busy then { s' with pending := .wait :: s.pending } else s'

/-- One host move, on a state whose `pending` holds the moves after it. -/
def hostMove (mv : HostMove) (s : State) : Host.Outcome State Fault Refusal :=
  match mv with
  | .wrIbuf i b => .next (hostWrIbuf i b s)
  | .wrIlen n => .next (hostWrIlen n s)
  | .wrRounds n => .next (hostWrRounds n s)
  | .wrH i w => .next (hostWrH i w s)
  | .wrBlk j b => .next (hostWrBlk j b s)
  | .wrT j w => .next (hostWrT j w s)
  | .wrFlag b => .next (hostWrFlag b s)
  | .rd p => .next (hostRd p s)
  | .issue c => .next (hostIssue c s)
  | .reset => .next s.resetRegisters
  | .wait => .next (hostWait s)
  | .present bytes => hostPresent bytes s
  | .readout bits => hostReadout bits s

/-- Whether the busy hold applies to a move: every WR move and ISSUE is held, RD moves and RESET never are (R166). -/
def heldMove : HostMove → Bool
  | .wrIbuf _ _ => true
  | .wrIlen _ => true
  | .wrRounds _ => true
  | .wrH _ _ => true
  | .wrBlk _ _ => true
  | .wrT _ _ => true
  | .wrFlag _ => true
  | .rd _ => false
  | .issue _ => true
  | .reset => false
  | .wait => false
  | .present _ => true
  | .readout _ => false

/-- The host's step: its next move, in program order (R61). -/
def hostStep (s : State) : Host.Outcome State Fault Refusal :=
  match s.pending with
  | [] => .next s
  | mv :: rest => hostMove mv { s with pending := rest }

/-- The command that OP names (R34, R167). -/
def instrOfOperation : Operation → Option Instr
  | .none => none
  | .decode => some .decode
  | .compress => some .compress

/-- COMPLETE (R167), the engine's only step: the operation OP names, as one atomic step. -/
def engineStep (s : State) : Host.Outcome State Fault Refusal :=
  match instrOfOperation s.op with
  | some i => exec i s
  | none => .fault .busyWithoutOperation

/-- Whether the host has a step: it has a move to make, and the move is not held (R16, R166). -/
def State.hostEnabled (s : State) : Bool :=
  match s.pending with
  | [] => false
  | mv :: _ => !(s.busy && heldMove mv)

/-- One atomic step of one agent (R6, R61). The engine is enabled exactly when ST = BUSY (R167). Where only one agent is enabled it
moves; where both are, `turns` says which, and after its last entry the engine (R209); where neither is, the instance is inactive
and every register keeps its value (R194). A RESET that the platform asserts (R169) is no agent of its own here: it stands in the host's
list at the place where it arrives, before the move the host waits at (DESIGN CHOICE, notes/assumptions/13.md). -/
def agentStep (s : State) : Host.Outcome State Fault Refusal :=
  match s.busy, s.hostEnabled with
  | false, false => .next s
  | false, true => hostStep s
  | true, false => engineStep s
  | true, true =>
    match s.turns with
    | [] => engineStep s
    | .engine :: ts => engineStep { s with turns := ts }
    | .host :: ts => hostStep { s with turns := ts }

end Sys2Proof.Machine
end

