-- ==== Sys2Proof/Machine/Step.lean ====
section
/-! DEFINITION. The step of one instance, and how an item is placed so that the next step runs it.

The block has no program counter and fetches no instruction (spec/10_state.md R35): the engine takes its next command from OP (R167), and
a data format arrives as the host's next move (R88). -/

namespace Sys2Proof.Machine

/-- One atomic step (R16, R61). -/
def step (s : State) : Host.Outcome State Fault Refusal := agentStep s

/-- A state in which no operation is in progress, for an item that a host move carries: `s` itself unless ST = BUSY, else `s` with the
operation taken out of OP and ST as the ERR field says the previous command ended. -/
def State.notBusy (s : State) : State :=
  if s.busy then { s.setSt (if s.err = 0#2 then .ok else .err) with op := .none } else s

/-- The engine takes the next step. -/
def State.engineNext (s : State) : State :=
  if s.hostEnabled then { s with turns := .engine :: s.turns } else s

/-- `mv` is the host's next move. -/
def State.hostNext (mv : HostMove) (s : State) : State := { s with pending := mv :: s.pending }

/-- `mv`, a move that is never held, is the host's next move and the next step is the host's. -/
def State.hostNextRead (mv : HostMove) (s : State) : State :=
  { s with pending := mv :: s.pending, turns := if s.busy then .host :: s.turns else s.turns }

/-- `s` with the item whose bytes are `bytes` placed so that the very next step runs it. A command stands in OP with ST = BUSY, as its
issue leaves it (R165), and the engine is next; a code that is no command, and a data format, is the host's next move. A CMD8 item that is not
exactly one byte is no command code at all (R86), and nothing is placed (DESIGN CHOICE, notes/assumptions/6.md). -/
def State.withFetchBytes (s : State) (fmt : Format) (bytes : List Byte) : State :=
  match fmt with
  | .cmd8 =>
    match decode .cmd8 bytes with
    | .ok i => (s.startOperation (operationOf i)).engineNext
    | .error _ =>
      match bytes with
      | [c] => s.notBusy.hostNext (.issue c)
      | _ => s
  | .frame213 => s.notBusy.hostNext (.present bytes)
  | .result64 => s.hostNextRead (.readout bytes)

/-- `s` with the item of `nbits` bits `w` placed so that the very next step runs it (numbered as spec/opcode_table.json numbers
them). -/
def State.withFetchWord (s : State) (nbits w : Nat) : State :=
  s.withFetchBytes (formatOfWidth nbits) (bytesOfBits (nbits / 8) w)

end Sys2Proof.Machine
end

