-- ==== Sys2Proof/Machine/HostProgram.lean ====
section
/-! DEFINITION. The pseudo-instructions of spec/30_encoding.md R88 as the host moves they stand for. -/

namespace Sys2Proof.Machine

/-- `wr.ibuf a, s[0]`, `wr.ibuf a+1, s[1]`, ... for the indices below 213. -/
def wrIbufMoves (a : Nat) : List Byte → List HostMove
  | [] => []
  | b :: bs => if h : a < 213 then .wrIbuf ⟨a, h⟩ b :: wrIbufMoves (a + 1) bs else []

/-- `loadframe s` (R88): `wr.ilen n`, then `wr.ibuf i, s[i]` for every i in [0, min(n, 213)) in ascending order. -/
def loadframeMoves (s : List Byte) : List HostMove := .wrIlen (BitVec.ofNat 32 s.length) :: wrIbufMoves 0 s

/-- `setargs rounds, h, block, t, flag` (R88). -/
def setargsMoves (x : Operands) : List HostMove :=
  .wrRounds x.rounds
    :: (List.finRange 8).map (fun i => .wrH i x.h[i])
    ++ (List.finRange 128).map (fun j => .wrBlk j x.block[j])
    ++ [.wrT 0 x.t[0], .wrT 1 x.t[1], .wrFlag x.flag]

/-- `readout` (R88): `rd.obuf j` for every j in [0, 64) in ascending order. -/
def readoutMoves : List HostMove := (List.finRange 64).map fun j => .rd (.obuf j)

/-- One word of `chain` (R88): the eight `rd.obuf` of `OBUF[8i..8i+8)` in ascending order, then `wr.h i` of the word `w`. -/
def chainWordMoves (i : Fin 8) (w : Word) : List HostMove :=
  (List.finRange 8).map (fun k : Fin 8 => .rd (.obuf ⟨8 * i.val + k.val, by omega⟩)) ++ [.wrH i w]

/-- `chain` (R88, R207): for i in [0,8), read `OBUF[8i..8i+8)` with eight `rd.obuf`, then `wr.h i, LE64(those bytes)`. A host's list of moves
is written down before it runs (notes/assumptions/2.md), so the bytes that the reads hand back are the argument `obuf`. -/
def chainMoves (obuf : List Byte) : List HostMove :=
  (List.finRange 8).flatMap fun i => chainWordMoves i (le64 (listView obuf) (8 * i.val))

/-- `f213 s` up to its branch (R88): `loadframe s`; `cmd DECODE`; `wait`. -/
def f213Moves (s : List Byte) : List HostMove := loadframeMoves s ++ [.issue Config.cmdDecode, .wait]

/-- The branch of `f213` on the STATUS value that `wait` read (R88): ST = OK goes on to COMPRESS, ST = ERR reads ERR_INFO and stops. R88 has
no line for ST = IDLE, which `wait` reads when a RESET came meanwhile: the host then makes no further move (DESIGN CHOICE,
notes/assumptions/14.md). -/
def f213Branch (status : U32) : List HostMove :=
  if status.extractLsb' 0 2 = stCode .ok then [.issue Config.cmdCompress, .wait] ++ readoutMoves
  else if status.extractLsb' 0 2 = stCode .err then [.rd .errInfo]
  else []

/-- Host moves made one after another, each with its step while nothing is in progress. -/
def hostMoves (s : State) : List HostMove → Host.Outcome State Fault Refusal
  | [] => .next s
  | mv :: rest =>
    match hostMove mv s with
    | .next s' => hostMoves s' rest
    | .fault f => .fault f
    | .refused r => .refused r

end Sys2Proof.Machine
end

