-- ==== Sys2Proof/Machine/Platform.lean ====
section
/-! DEFINITION. A platform of several instances (spec/10_state.md R40, spec/60_exceptions.md R192): each has its own copy of every
register, and a step is a step of one of them. -/

namespace Sys2Proof.Machine

/-- The instances a platform places, each with its host (R40, R68). -/
structure Platform where
  cores : List State
deriving DecidableEq, Repr

/-- N_INSTANCES instances right after reset (R8, R40). -/
def Platform.reset (n : Nat := Config.nInstances) : Platform where
  cores := List.replicate n State.reset

/-- A step of instance `k`; where there is no instance `k`, nothing. -/
def Platform.stepAt (p : Platform) (k : Nat) : Host.Outcome Platform Fault Refusal :=
  match p.cores[k]? with
  | none => .next p
  | some s =>
    match step s with
    | .next s' => .next ⟨p.cores.set k s'⟩
    | .fault f => .fault f
    | .refused r => .refused r

end Sys2Proof.Machine
end

