-- ==== Sys2Proof/Safety.lean ====
section
/-! DEFINITION. What counts as a sound state and as an admitted host, in the terms claims use. -/

namespace Sys2Proof.Machine

/-- The invariant of every reachable state (R29, R34, R83, R84) and the canonical form of the buffers. -/
structure State.Inv (s : State) : Prop where
  /-- The buffers keep their canonical form, within their sizes (R50). -/
  memory : s.mem.wf = true
  /-- STATUS bits 31:4 are 0 (R29). -/
  reserved : s.status.extractLsb' 4 28 = 0#28
  /-- ERR = 3 is never produced (R29). -/
  errLegal : s.err ≠ 3#2
  /-- OP = 0 exactly when ST is not BUSY (R34). -/
  opIdle : s.op = .none ↔ s.busy = false
  /-- ST = IDLE implies ERR = 0 and OBUF is all zero (R29; ERR_INFO = 0 follows by `infoNone`). -/
  idle : s.st = stCode .idle → s.err = 0#2 ∧ ∀ j, s.mem.read .obuf j = 0x00#8
  /-- ST = OK implies ERR = 0 (R29). -/
  ok : s.st = stCode .ok → s.err = 0#2
  /-- ST = ERR implies ERR is 1 or 2 (R29). -/
  failed : s.st = stCode .err → s.err = 1#2 ∨ s.err = 2#2
  /-- With ERR = none, ERR_INFO is 0 (R84). -/
  infoNone : s.err = 0#2 → s.errInfo = 0#32
  /-- With ERR = LengthError, ERR_INFO is any value except 213 (R84). -/
  infoLength : s.err = 1#2 → s.errInfo ≠ 213#32
  /-- With ERR = FlagError, ERR_INFO is in [2, 255] (R84). -/
  infoFlag : s.err = 2#2 → 2 ≤ s.errInfo.toNat ∧ s.errInfo.toNat ≤ 255

/-- The admitted subset of hosts (R73, spec/93 U4): no reserved command code is issued, and every move is well formed (R22). The machine
gives a reserved code its meaning all the same. -/
def admittedMove : HostMove → Bool
  | .issue c => (decodeCommand c).isSome
  | mv => mv.wellFormed

/-- A host that stays in the admitted subset. -/
def State.hostAdmitted (s : State) : Bool := s.pending.all admittedMove

/-- A host all of whose moves are well formed: all that a run needs to go on without a refusal. -/
def State.hostWellFormed (s : State) : Bool := s.pending.all HostMove.wellFormed

/-- `n` steps, stopping at the first fault or refusal. -/
def runSteps : Nat → State → Host.Outcome State Fault Refusal
  | 0, s => .next s
  | n + 1, s =>
    match step s with
    | .next s' => runSteps n s'
    | .fault f => .fault f
    | .refused r => .refused r

/-- Two states whose input and operand registers read alike: ILEN, IBUF, ROUNDS, H, BLK, T, FLAG (R62). -/
structure State.SameInputs (s s' : State) : Prop where
  ilen : s'.ilen = s.ilen
  ibuf : ∀ i, s'.mem.read .ibuf i = s.mem.read .ibuf i
  rounds : s'.rounds = s.rounds
  h : s'.h = s.h
  blk : ∀ j, s'.mem.read .blk j = s.mem.read .blk j
  t : s'.t = s.t
  flag : s'.flag = s.flag

/-- Two states in which the engine's hidden registers V, M and R are the same (R32 to R34). -/
structure State.SameHidden (s s' : State) : Prop where
  v : s'.v = s.v
  m : s'.m = s.m
  r : s'.r = s.r

/-- Two states in which the host agent stands at the same place. -/
structure State.SameHost (s s' : State) : Prop where
  pending : s'.pending = s.pending
  received : s'.received = s.received
  turns : s'.turns = s.turns

end Sys2Proof.Machine
end

