-- ==== Sys2Proof/Certificates/Slice0/Obligations.lean ====
section
/-! DEFINITION. The statements for the provers, from the numbered rules of spec/. Each says in its docstring which rules it formalises;
a clause that rests on a choice of this model says so and names the log entry. -/

open Sys2Proof Sys2Proof.Machine

/-! ## Encodings -/

/-- Decoding the bytes of a well-formed instruction, in its own format, gives the instruction back: commands (R72), every legal frame
(R74 to R79) and every result frame (R82), so that no bit of an encoding is dropped. -/
def Obligations.DecodeOfEncode : Prop :=
  ∀ i : Instr, i.wellFormed = true → decode i.format (encode i) = .ok i

/-- R81. The frame of a five-tuple is the concatenation the rule prints, and decoding is a bijection between five-tuples and legal
frames. -/
def Obligations.FrameBijection : Prop :=
  (∀ x : Operands, encode (.frame213 x.toFrame) =
      toBE32 x.rounds ++ x.h.toList.flatMap toLE64 ++ x.block.toList ++ x.t.toList.flatMap toLE64
        ++ [if x.flag then 0x01#8 else 0x00#8])
  ∧ (∀ x : Operands, ∃ f : Frame,
      decode .frame213 (encode (.frame213 x.toFrame)) = .ok (.frame213 f) ∧ f.toOperands = x)
  ∧ (∀ bs : List Byte, bs.length = 213 → listView bs 212 = 0x00#8 ∨ listView bs 212 = 0x01#8 →
      ∃ f : Frame, decode .frame213 bs = .ok (.frame213 f) ∧ encode (.frame213 f.toOperands.toFrame) = bs)

/-- R80, the two illegal cases and no other: a sequence that is not 213 bytes long is rejected with its length (whatever its bytes), one
of 213 bytes whose byte 212 is neither 0x00 nor 0x01 is rejected with that byte, and every other sequence is a frame. -/
def Obligations.IllegalFramesExactly : Prop :=
  ∀ bs : List Byte,
    (bs.length ≠ 213 → decode .frame213 bs = .error (.lengthError bs.length))
    ∧ (bs.length = 213 → listView bs 212 ≠ 0x00#8 → listView bs 212 ≠ 0x01#8 →
        decode .frame213 bs = .error (.flagError (listView bs 212)))
    ∧ (bs.length = 213 → listView bs 212 = 0x00#8 ∨ listView bs 212 = 0x01#8 →
        ∃ f : Frame, decode .frame213 bs = .ok (.frame213 f))

/-- R72, R73: the code 0x01 is DECODE, 0x02 is COMPRESS, and each of the other 254 is reserved, all eight bits compared. -/
def Obligations.CommandCodes : Prop :=
  decode .cmd8 [0x01#8] = .ok .decode
  ∧ decode .cmd8 [0x02#8] = .ok .compress
  ∧ ∀ c : Byte, c ≠ 0x01#8 → c ≠ 0x02#8 → decode .cmd8 [c] = .error (.reservedCommandCode c)

/-- Words written out from the encodings of R72, R74 and R82 decode to the instructions they stand for: the command codes and a reserved
one; frames with one byte set (byte 3 is the low byte of the big-endian round count, byte 4 the low byte of h[0], byte 204 of t[1],
byte 212 the flag); a result frame whose byte 8 is the low byte of word 1. -/
def Obligations.SampleWords : Prop :=
  decodeTableWord 8 0x01 = some .decode
  ∧ decodeTableWord 8 0x02 = some .compress
  ∧ decodeTableWord 8 0x7e = none
  ∧ (∃ f : Frame, decodeTableWord 1704 (2 ^ (8 * 3)) = some (.frame213 f) ∧ f.rounds = 1 ∧ f.flagByte = 0)
  ∧ (∃ f : Frame, decodeTableWord 1704 (2 ^ (8 * 4)) = some (.frame213 f) ∧ f.rounds = 0 ∧ f.h[0] = 1)
  ∧ (∃ f : Frame, decodeTableWord 1704 (2 ^ (8 * 204)) = some (.frame213 f) ∧ f.t[0] = 0 ∧ f.t[1] = 1)
  ∧ (∃ f : Frame, decodeTableWord 1704 (2 ^ (8 * 212)) = some (.frame213 f) ∧ f.flagByte = 1)
  ∧ decodeTableWord 1704 (2 ^ (8 * 212 + 1)) = none
  ∧ (∃ res : Vector Word 8, decodeTableWord 512 (2 ^ (8 * 8)) = some (.result64 res) ∧ res[0] = 0 ∧ res[1] = 1)

/-- R13: the little-endian word codec, as the sum the rule prints, with its inverse both ways and the rule's example. -/
def Obligations.LittleEndianCodec : Prop :=
  (∀ (f : Nat → Byte) (a : Nat), (le64 f a).toNat =
      (f a).toNat + (f (a + 1)).toNat * 2 ^ 8 + (f (a + 2)).toNat * 2 ^ 16 + (f (a + 3)).toNat * 2 ^ 24
        + (f (a + 4)).toNat * 2 ^ 32 + (f (a + 5)).toNat * 2 ^ 40 + (f (a + 6)).toNat * 2 ^ 48 + (f (a + 7)).toNat * 2 ^ 56)
  ∧ (∀ (w : Word), (toLE64 w).length = 8 ∧ ∀ k, k < 8 → (listView (toLE64 w) k).toNat = w.toNat / 2 ^ (8 * k) % 2 ^ 8)
  ∧ (∀ w : Word, le64 (listView (toLE64 w)) 0 = w)
  ∧ (∀ bs : List Byte, bs.length = 8 → toLE64 (le64 (listView bs) 0) = bs)
  ∧ le64 (listView [0x48, 0xc9, 0xbd, 0xf2, 0x67, 0xe6, 0x09, 0x6a]) 0 = 0x6a09e667f2bdc948#64

/-- R14: the big-endian round-count codec, as the sum the rule prints, with its inverse both ways and the rule's example. -/
def Obligations.BigEndianCodec : Prop :=
  (∀ (f : Nat → Byte) (a : Nat), (be32 f a).toNat =
      (f a).toNat * 2 ^ 24 + (f (a + 1)).toNat * 2 ^ 16 + (f (a + 2)).toNat * 2 ^ 8 + (f (a + 3)).toNat)
  ∧ (∀ (n : U32), (toBE32 n).length = 4 ∧ ∀ k, k < 4 → (listView (toBE32 n) k).toNat = n.toNat / 2 ^ (8 * (3 - k)) % 2 ^ 8)
  ∧ (∀ n : U32, be32 (listView (toBE32 n)) 0 = n)
  ∧ (∀ bs : List Byte, bs.length = 4 → toBE32 (be32 (listView bs) 0) = bs)
  ∧ be32 (listView [0x00, 0x00, 0x00, 0x0c]) 0 = 12#32

/-! ## DECODE -/

/-- R101, R181, R184, R185: when ILEN is not 213, DECODE completes with ST = ERR, ERR = LengthError (STATUS = 0x00000007, R83), ERR_INFO =
ILEN and OP = 0, and NOTHING ELSE of the state changes; so no byte of IBUF, not even IBUF[212], reaches any result. -/
def Obligations.DecodeLengthError : Prop :=
  ∀ s : State, s.ilen ≠ 213#32 →
    exec .decode s = .next { s with status := 0x00000007#32, errInfo := s.ilen, op := .none }

/-- R102, R182, R184, R185: when ILEN is 213 and IBUF[212] is neither 0x00 nor 0x01, all eight bits compared, DECODE completes with ST =
ERR, ERR = FlagError (STATUS = 0x0000000B, R83), ERR_INFO = the byte zero-extended and OP = 0, and NOTHING ELSE changes. -/
def Obligations.DecodeFlagError : Prop :=
  ∀ s : State, s.ilen = 213#32 → s.mem.read .ibuf 212 ≠ 0x00#8 → s.mem.read .ibuf 212 ≠ 0x01#8 →
    exec .decode s =
      .next { s with status := 0x0000000B#32, errInfo := (s.mem.read .ibuf 212).setWidth 32, op := .none }

/-- R100, R103, R104 (with R75 to R79 for the assembly of the fields): when both checks pass, DECODE completes with the five operand
registers holding the frame's fields, STATUS = 0x00000002 (ST = OK, ERR = none), ERR_INFO = 0 and OP = 0. Its frame: ILEN, IBUF, OBUF,
the hidden V, M and R and the host agent are unchanged, and the new values depend on IBUF alone. (That V, M and R are unchanged, where R32
to R34 leave them unspecified between operations, is this model's choice, notes/assumptions/1.md.) -/
def Obligations.DecodeSuccess : Prop :=
  ∀ s : State, s.ilen = 213#32 → s.mem.read .ibuf 212 = 0x00#8 ∨ s.mem.read .ibuf 212 = 0x01#8 →
    ∃ t : State, exec .decode s = .next t
      ∧ t.rounds.toNat = (s.mem.read .ibuf 0).toNat * 2 ^ 24 + (s.mem.read .ibuf 1).toNat * 2 ^ 16
          + (s.mem.read .ibuf 2).toNat * 2 ^ 8 + (s.mem.read .ibuf 3).toNat
      ∧ (∀ i : Fin 8, t.h[i].toNat = ∑ k ∈ Finset.range 8, (s.mem.read .ibuf (4 + 8 * i.val + k)).toNat * 2 ^ (8 * k))
      ∧ (∀ j, j < 128 → t.mem.read .blk j = s.mem.read .ibuf (68 + j))
      ∧ (∀ j : Fin 2, t.t[j].toNat = ∑ k ∈ Finset.range 8, (s.mem.read .ibuf (196 + 8 * j.val + k)).toNat * 2 ^ (8 * k))
      ∧ (t.flag = true ↔ s.mem.read .ibuf 212 = 0x01#8)
      ∧ t.status = 0x00000002#32 ∧ t.errInfo = 0#32 ∧ t.op = .none
      ∧ t.ilen = s.ilen
      ∧ (∀ a, t.mem.read .ibuf a = s.mem.read .ibuf a)
      ∧ (∀ a, t.mem.read .obuf a = s.mem.read .obuf a)
      ∧ (∀ a, 128 ≤ a → t.mem.read .blk a = s.mem.read .blk a)
      ∧ s.SameHidden t ∧ s.SameHost t

/-- R106: DECODE is total. From every state it completes, in one of exactly three ways, told apart by STATUS; it never faults, is never
refused, and OP is clear afterwards. -/
def Obligations.DecodeTotal : Prop :=
  ∀ s : State, ∃ t : State, exec .decode s = .next t ∧ t.op = .none ∧ t.busy = false
    ∧ ((t.status = 0x00000002#32 ∧ t.errInfo = 0#32)
      ∨ (t.status = 0x00000007#32 ∧ t.errInfo = s.ilen)
      ∨ (t.status = 0x0000000B#32 ∧ t.errInfo = (s.mem.read .ibuf 212).setWidth 32))

/-- R107, R109: what DECODE writes is a function of (ILEN, IBUF) alone, and of ILEN alone when that is not 213. Two states that agree on
ILEN and, if it is 213, on the 213 bytes of IBUF get the same STATUS and ERR_INFO, and on success the same five operands. -/
def Obligations.DecodePurity : Prop :=
  ∀ s s' : State, s.ilen = s'.ilen →
    (s.ilen = 213#32 → ∀ i, i < 213 → s.mem.read .ibuf i = s'.mem.read .ibuf i) →
    ∃ t t' : State, exec .decode s = .next t ∧ exec .decode s' = .next t'
      ∧ t.status = t'.status ∧ t.errInfo = t'.errInfo
      ∧ (t.status = 0x00000002#32 → t.operands = t'.operands)

/-- R107: issuing DECODE twice gives the same registers and status both times, and never writes IBUF or ILEN. -/
def Obligations.DecodeRepeats : Prop :=
  ∀ s : State, ∃ t u : State, exec .decode s = .next t ∧ exec .decode t = .next u
    ∧ u.status = t.status ∧ u.errInfo = t.errInfo ∧ u.operands = t.operands
    ∧ t.ilen = s.ilen ∧ (∀ i, t.mem.read .ibuf i = s.mem.read .ibuf i)

/-! ## COMPRESS -/

/-- R121, R128, R129: from every state COMPRESS completes, with STATUS = 0x00000002, ERR_INFO = 0 and OP = 0 (R120, R137). With V what
the rounds 0 .. ROUNDS - 1 (R130) leave of the initialised vector (R125) over the message words (R124), OBUF byte 8i + k is bits
8k+7 : 8k of `H[i] XOR V[i] XOR V[i+8]`. Its frame: ILEN, IBUF, ROUNDS, H, BLK, T, FLAG and the host agent are unchanged; the hidden V,
M and R are written (R20). -/
def Obligations.CompressResult : Prop :=
  ∀ s : State, ∃ t : State, exec .compress s = .next t
    ∧ (let v := mixRounds (messageWords s.operands.block) (initV s.operands) s.rounds.toNat
       ∀ (i : Fin 8) (k : Nat), k < 8 →
        t.mem.read .obuf (8 * i.val + k) = (s.h[i] ^^^ v[i.val] ^^^ v[i.val + 8]).extractLsb' (8 * k) 8)
    ∧ t.status = 0x00000002#32 ∧ t.errInfo = 0#32 ∧ t.op = .none
    ∧ (∀ a, 64 ≤ a → t.mem.read .obuf a = s.mem.read .obuf a)
    ∧ s.SameInputs t ∧ s.SameHost t

/-- R9, R137, R140: what COMPRESS writes is a function of ROUNDS, H, BLK, T and FLAG alone. Two states with the same five operands get the
same 64 bytes of OBUF, whatever else they hold, and a second COMPRESS gives the same OBUF again. -/
def Obligations.CompressPurity : Prop :=
  ∀ s s' : State, s.operands = s'.operands →
    ∃ t t' u : State, exec .compress s = .next t ∧ exec .compress s' = .next t' ∧ exec .compress t = .next u
      ∧ (∀ j, j < 64 → t'.mem.read .obuf j = t.mem.read .obuf j)
      ∧ (∀ j, j < 64 → u.mem.read .obuf j = t.mem.read .obuf j)
      ∧ t'.status = t.status ∧ t'.errInfo = t.errInfo

/-- R131: with ROUNDS = 0 the result words are IV[0..4), T[0] XOR IV[4], T[1] XOR IV[5], IV[6] (complemented when FLAG = 1) and IV[7];
H and BLK do not appear. -/
def Obligations.ZeroRounds : Prop :=
  ∀ s : State, s.rounds = 0#32 → ∃ t : State, exec .compress s = .next t
    ∧ (∀ i : Fin 4, le64 (t.mem.read .obuf) (8 * i.val) = IV[i.val])
    ∧ le64 (t.mem.read .obuf) 32 = s.t[0] ^^^ IV[4]
    ∧ le64 (t.mem.read .obuf) 40 = s.t[1] ^^^ IV[5]
    ∧ le64 (t.mem.read .obuf) 48 = IV[6] ^^^ (if s.flag then ALL_ONES else 0)
    ∧ le64 (t.mem.read .obuf) 56 = IV[7]

/-- R124 with the sum of R13: message word `i` is the little-endian word of BLK bytes 8i .. 8i + 7. -/
def Obligations.MessageSplit : Prop :=
  ∀ (block : Vector Byte 128) (i : Fin 16),
    (messageWords block)[i].toNat = ∑ k : Fin 8, (block[8 * i.val + k.val]).toNat * 2 ^ (8 * k.val)

/-- R125: the table of the initialised working vector, with the two printed values of V[14]. -/
def Obligations.WorkVectorInit : Prop :=
  ∀ x : Operands,
    (∀ k : Fin 8, (initV x)[k.val] = x.h[k])
    ∧ (∀ k : Fin 4, (initV x)[8 + k.val] = IV[k.val])
    ∧ (initV x)[12] = x.t[0] ^^^ IV[4]
    ∧ (initV x)[13] = x.t[1] ^^^ IV[5]
    ∧ (initV x)[14] = (if x.flag then 0xe07c265404be4294#64 else 0x1f83d9abfb41bd6b#64)
    ∧ (initV x)[15] = IV[7]

/-- R127: for four distinct indices, G writes exactly V[a], V[b], V[c], V[d], with what its eight lines leave, and reads nothing but those
four words and x, y. -/
def Obligations.MixingPrimitive : Prop :=
  ∀ (a b c d : Fin 16) (x y : Word) (v : WorkVec), a ≠ b → a ≠ c → a ≠ d → b ≠ c → b ≠ d → c ≠ d →
    let a1 := v[a] + v[b] + x
    let d1 := (v[d] ^^^ a1).rotateRight 32
    let c1 := v[c] + d1
    let b1 := (v[b] ^^^ c1).rotateRight 24
    let a2 := a1 + b1 + y
    let d2 := (d1 ^^^ a2).rotateRight 16
    let c2 := c1 + d2
    let b2 := (b1 ^^^ c2).rotateRight 63
    (mixG a b c d x y v)[a] = a2 ∧ (mixG a b c d x y v)[b] = b2
    ∧ (mixG a b c d x y v)[c] = c2 ∧ (mixG a b c d x y v)[d] = d2
    ∧ ∀ k : Fin 16, k ≠ a → k ≠ b → k ≠ c → k ≠ d → (mixG a b c d x y v)[k] = v[k]

/-- R126: a round is the eight applications of G the rule lists, in that order, the `i`-th with the message words M[s[2i]] and
M[s[2i+1]], where s = SIGMA[r mod 10]. -/
def Obligations.RoundIsEightMixings : Prop :=
  ∀ (m : Vector Word 16) (r : Nat) (v : WorkVec),
    mixRound m r v =
      List.foldl
        (fun (w : WorkVec) (q : (Fin 16 × Fin 16 × Fin 16 × Fin 16) × Fin 16 × Fin 16) =>
          mixG q.1.1 q.1.2.1 q.1.2.2.1 q.1.2.2.2
            m[(SIGMA[r % 10]'(Nat.mod_lt r (by decide)))[q.2.1]] m[(SIGMA[r % 10]'(Nat.mod_lt r (by decide)))[q.2.2]] w)
        v
        [((0, 4, 8, 12), 0, 1), ((1, 5, 9, 13), 2, 3), ((2, 6, 10, 14), 4, 5), ((3, 7, 11, 15), 6, 7),
         ((0, 5, 10, 15), 8, 9), ((1, 6, 11, 12), 10, 11), ((2, 7, 8, 13), 12, 13), ((3, 4, 9, 14), 14, 15)]

/-- R130: rounds run in ascending order from the V the previous one left, the schedule repeats every ten rounds, and the rows the rule
names are used: round 9 row 9, round 10 row 0, round 11 row 1, round 4294967294 row 4. -/
def Obligations.ScheduleWraps : Prop :=
  (∀ (m : Vector Word 16) (v : WorkVec), mixRounds m v 0 = v)
  ∧ (∀ (m : Vector Word 16) (v : WorkVec) (n : Nat), mixRounds m v (n + 1) = mixRound m n (mixRounds m v n))
  ∧ (∀ (m : Vector Word 16) (v : WorkVec) (r k : Nat), mixRound m (r + 10 * k) v = mixRound m r v)
  ∧ schedule 9 = SIGMA[9] ∧ schedule 10 = SIGMA[0] ∧ schedule 11 = SIGMA[1] ∧ schedule 4294967294 = SIGMA[4]

/-- R139: the four applications of G within the column step, and those within the diagonal step, commute: made in any order they give the
step's result. -/
def Obligations.QuadruplesCommute : Prop :=
  ∀ (m : Vector Word 16) (s : Vector (Fin 16) 16) (v : WorkVec),
    (∀ gs : List (WorkVec → WorkVec),
      gs.Perm [mixG 0 4 8 12 m[s[0]] m[s[1]], mixG 1 5 9 13 m[s[2]] m[s[3]], mixG 2 6 10 14 m[s[4]] m[s[5]],
        mixG 3 7 11 15 m[s[6]] m[s[7]]] →
      gs.foldl (fun w g => g w) v = columnStep m s v)
    ∧ (∀ gs : List (WorkVec → WorkVec),
      gs.Perm [mixG 0 5 10 15 m[s[8]] m[s[9]], mixG 1 6 11 12 m[s[10]] m[s[11]], mixG 2 7 8 13 m[s[12]] m[s[13]],
        mixG 3 4 9 14 m[s[14]] m[s[15]]] →
      gs.foldl (fun w g => g w) v = diagonalStep m s v)

/-- R135: for fixed M each round is a bijection on V, and so are any number of rounds. (The spec marks this as its own derivation from R127,
and says in spec/93 K5 that the source does not say it.) -/
def Obligations.RoundsAreBijections : Prop :=
  ∀ (m : Vector Word 16),
    (∀ r : Nat, Function.Bijective (mixRound m r)) ∧ (∀ n : Nat, Function.Bijective fun v => mixRounds m v n)

/-- R135: with ROUNDS = 0 two operand sets that differ in FLAG alone have results that differ exactly in word 6, and there in every
bit. -/
def Obligations.FlagAtZeroRounds : Prop :=
  ∀ x : Operands, x.rounds = 0#32 →
    (∀ i : Fin 8, i ≠ 6 → (compressF { x with flag := true })[i] = (compressF { x with flag := false })[i])
    ∧ (compressF { x with flag := true })[6] = ~~~(compressF { x with flag := false })[6]

/-- The values of R122, which the spec supplies from general knowledge (notes/assumptions/7.md): IV[i] is floor(sqrt(p) * 2^64) mod 2^64
for the i-th prime p; with `q` the integer part of sqrt(p), q * 2^64 + IV[i] is the integer square root of p * 2^128. -/
def Obligations.InitializationVector : Prop :=
  ∀ i : Fin 8,
    let p := [2, 3, 5, 7, 11, 13, 17, 19].getD i.val 0
    let q := [1, 1, 2, 2, 3, 3, 4, 4].getD i.val 0
    (q * 2 ^ 64 + (IV[i]).toNat) ^ 2 ≤ p * 2 ^ 128 ∧ p * 2 ^ 128 < (q * 2 ^ 64 + (IV[i]).toNat + 1) ^ 2

/-- The table of R123, which the spec supplies from general knowledge (notes/assumptions/7.md): every row of SIGMA contains each of 0..15
exactly once. -/
def Obligations.ScheduleRowsArePermutations : Prop :=
  ∀ (k : Fin 10) (x : Fin 16), (SIGMA[k]).toList.count x = 1

/-- R138: a COMPRESS stepped one round at a time ends in the very state the single completion step gives; R never wraps, and until the
results are published nothing but M, V and R has changed. (That M, V and R keep after the operation what its loop left, where R32 to R34
leave them unspecified, is this model's choice, notes/assumptions/1.md.) -/
def Obligations.FineSteppingAgrees : Prop :=
  ∀ s : State,
    exec .compress s = .next (s.fineStart.fineRounds s.rounds.toNat).finePublish
    ∧ ∀ n, n ≤ s.rounds.toNat →
        (s.fineStart.fineRounds n).r.toNat = n
        ∧ s.fineStart.fineRounds n =
            { s with m := (s.fineStart.fineRounds n).m, v := (s.fineStart.fineRounds n).v, r := (s.fineStart.fineRounds n).r }

/-- R206, R187: after a DECODE that fails, a COMPRESS runs on the stale operands, completes with STATUS = 0x00000002 and ERR_INFO = 0, and
leaves the OBUF that the old operands give. -/
def Obligations.StaleOperandsAfterError : Prop :=
  ∀ s t : State, exec .decode s = .next t → t.st = 3#2 →
    ∃ u u' : State, exec .compress t = .next u ∧ exec .compress s = .next u'
      ∧ u.status = 0x00000002#32 ∧ u.errInfo = 0#32
      ∧ (∀ j, j < 64 → u.mem.read .obuf j = u'.mem.read .obuf j)
      ∧ u.operands = s.operands

/-! ## FRAME213 and RESULT64 -/

/-- R22, R88 `loadframe`, R161, R162: when nothing is in progress, presenting a frame puts its 213 bytes in IBUF and 213 in ILEN and
changes nothing else: no operand register, no other byte, no status, nothing starts. That the host's 214 writes are one transaction is
this model's choice (notes/assumptions/3.md); `FrameIsLoadframe` says it changes nothing. -/
def Obligations.FramePresented : Prop :=
  ∀ (x : Frame) (s : State), s.busy = false →
    ∃ t : State, exec (.frame213 x) s = .next t
      ∧ t = { s with mem := t.mem, ilen := 213#32 }
      ∧ (∀ i, i < 213 → t.mem.read .ibuf i = listView (encode (.frame213 x)) i)
      ∧ (∀ sp a, sp ≠ .ibuf ∨ 213 ≤ a → t.mem.read sp a = s.mem.read sp a)

/-- R166: while ST = BUSY presenting a frame is held: it has no step, and the state is as it was. -/
def Obligations.FrameHeldWhileBusy : Prop :=
  ∀ (x : Frame) (s : State), s.busy = true → exec (.frame213 x) s = .next s

/-- R88: presenting a byte sequence as one item, `loadframe` written out as single writes, and, for a legal frame, the instruction
FRAME213, are the same: for every sequence shorter than 2^32 bytes (R22) and every state with nothing in progress. -/
def Obligations.FrameIsLoadframe : Prop :=
  (∀ (bs : List Byte) (s : State), bs.length < 2 ^ 32 → s.busy = false →
      hostMove (.present bs) s = hostMoves s (loadframeMoves bs))
  ∧ (∀ (x : Frame) (s : State), s.busy = false →
      exec (.frame213 x) s = hostMoves s (loadframeMoves (encode (.frame213 x))))

/-- R82, R88 `readout`, R58, R164: from every state, reading out the result frame hands back the 64 bytes of OBUF in ascending order and
changes nothing of the block. That the bits the term names do not matter is this model's choice (notes/assumptions/4.md). -/
def Obligations.ResultReadOut : Prop :=
  ∀ (res : Vector Word 8) (s : State),
    ∃ vs : List Reply, exec (.result64 res) s = .next { s with received := s.received ++ vs }
      ∧ vs.length = 64 ∧ ∀ j, j < 64 → vs[j]? = some (.byte (s.mem.read .obuf j))

/-- R88: `readout` as one item, and as 64 single reads with no step of the engine between them, give the same state. That the item is one
transaction while ST = BUSY too, where a COMPLETE could fall between single reads (R57, R164, R167), and that the bits the term names do
not matter, is this model's choice (notes/assumptions/4.md). -/
def Obligations.ResultIsReadout : Prop :=
  ∀ (res : Vector Word 8) (s : State), exec (.result64 res) s = hostMoves s readoutMoves

/-- R82, R129: the 64 bytes that COMPRESS leaves in OBUF are the RESULT64 frame of the result words: they decode to it. -/
def Obligations.CompressLeavesResultFrame : Prop :=
  ∀ s : State, ∃ t : State, exec .compress s = .next t
    ∧ decode .result64 (t.mem.readBytes .obuf 0 64) = .ok (.result64 (compressF s.operands))
    ∧ t.mem.readBytes .obuf 0 64 = encode (.result64 (compressF s.operands))

/-- R207, R88 `chain`: chaining is the host's. After a COMPRESS, H is not changed; the moves of `chain` hand back the 64 bytes of OBUF in
ascending order, put the result words in H and change nothing else. The bytes `chain` is given are those its reads hand back. -/
def Obligations.ChainingByTheHost : Prop :=
  ∀ s : State, ∃ t u : State, exec .compress s = .next t ∧ t.h = s.h
    ∧ hostMoves t (chainMoves (t.mem.readBytes .obuf 0 64)) = .next u
    ∧ u = { t with
        h := compressF s.operands
        received := t.received ++ (t.mem.readBytes .obuf 0 64).map Reply.byte }

/-- R171: the two paths agree. For every five-tuple, presenting its frame, DECODE and COMPRESS leave in OBUF what writing the operands with
the host's writes and COMPRESS leave there; and on the frame path no error occurs. -/
def Obligations.TwoPathsAgree : Prop :=
  ∀ (x : Operands) (s : State), s.busy = false →
    ∃ a b c d e : State,
      exec (.frame213 x.toFrame) s = .next a ∧ exec .decode a = .next b ∧ exec .compress b = .next c
      ∧ hostMoves s (setargsMoves x) = .next d ∧ exec .compress d = .next e
      ∧ b.status = 0x00000002#32 ∧ b.operands = x ∧ d.operands = x
      ∧ ∀ j, j < 64 → c.mem.read .obuf j = e.mem.read .obuf j

/-! ## Host moves -/

/-- R161, R162, R163: with nothing in progress each WR move writes that one item, for every value of its type, and nothing else; while
ST = BUSY it is held and changes nothing. -/
def Obligations.HostWrites : Prop :=
  ∀ s : State,
    (s.busy = false →
      (∀ (i : Fin 213) (b : Byte), ∃ t, hostMove (.wrIbuf i b) s = .next t ∧ t = { s with mem := t.mem }
        ∧ ∀ sp a, t.mem.read sp a = if sp = .ibuf ∧ a = i.val then b else s.mem.read sp a)
      ∧ (∀ n : U32, hostMove (.wrIlen n) s = .next { s with ilen := n })
      ∧ (∀ n : U32, hostMove (.wrRounds n) s = .next { s with rounds := n })
      ∧ (∀ (i : Fin 8) (w : Word), ∃ t, hostMove (.wrH i w) s = .next t ∧ t = { s with h := t.h }
        ∧ ∀ k : Fin 8, t.h[k] = if k = i then w else s.h[k])
      ∧ (∀ (j : Fin 128) (b : Byte), ∃ t, hostMove (.wrBlk j b) s = .next t ∧ t = { s with mem := t.mem }
        ∧ ∀ sp a, t.mem.read sp a = if sp = .blk ∧ a = j.val then b else s.mem.read sp a)
      ∧ (∀ (j : Fin 2) (w : Word), ∃ t, hostMove (.wrT j w) s = .next t ∧ t = { s with t := t.t }
        ∧ ∀ k : Fin 2, t.t[k] = if k = j then w else s.t[k])
      ∧ (∀ b : Bool, hostMove (.wrFlag b) s = .next { s with flag := b }))
    ∧ (s.busy = true →
      (∀ i b, hostMove (.wrIbuf i b) s = .next s)
      ∧ (∀ n, hostMove (.wrIlen n) s = .next s)
      ∧ (∀ n, hostMove (.wrRounds n) s = .next s)
      ∧ (∀ i w, hostMove (.wrH i w) s = .next s)
      ∧ (∀ j b, hostMove (.wrBlk j b) s = .next s)
      ∧ (∀ j w, hostMove (.wrT j w) s = .next s)
      ∧ (∀ b, hostMove (.wrFlag b) s = .next s))

/-- R58: every write of a data register is idempotent: the same write a second time changes nothing. (The premise is the canonical form
of the buffers, part of the invariant `StepKeepsInvariant` carries along.) -/
def Obligations.WritesAreIdempotent : Prop :=
  ∀ (mv : HostMove) (s t : State), s.mem.wf = true → heldMove mv = true → (∀ c, mv ≠ .issue c) → hostMove mv s = .next t →
    hostMove mv t = .next t

/-- R55: writing BLK[j] changes exactly byte `j mod 8` of message word `j / 8`, and no other bit of M. -/
def Obligations.MixedWidthBlock : Prop :=
  ∀ (j : Fin 128) (b : Byte) (s : State), s.busy = false →
    ∃ t, hostMove (.wrBlk j b) s = .next t ∧
      ∀ (i : Fin 16) (k : Nat), k < 8 →
        (messageWords t.operands.block)[i].extractLsb' (8 * k) 8 =
          if i.val = j.val / 8 ∧ k = j.val % 8 then b else (messageWords s.operands.block)[i].extractLsb' (8 * k) 8

/-- R164, R58: a read is enabled in every state, ST = BUSY included when it is the host's turn, hands back the register's current value
and changes nothing of the block. (Whose turn it is, where both agents are enabled, is read from `turns`: notes/assumptions/2.md.) -/
def Obligations.HostReads : Prop :=
  (∀ (p : ReadPort) (rest : List HostMove) (ts : List Agent) (s : State), s.pending = .rd p :: rest →
    s.busy = true → s.turns = .host :: ts →
      step s = .next { s with pending := rest, turns := ts, received := s.received ++ [s.readPort p] })
  ∧ (∀ (p : ReadPort) (rest : List HostMove) (s : State), s.pending = .rd p :: rest → s.busy = false →
      step s = .next { s with pending := rest, received := s.received ++ [s.readPort p] })
  ∧ (∀ s : State,
      (∀ i : Fin 213, s.readPort (.ibuf i) = .byte (s.mem.read .ibuf i.val))
      ∧ s.readPort .ilen = .u32 s.ilen ∧ s.readPort .rounds = .u32 s.rounds
      ∧ (∀ i : Fin 8, s.readPort (.h i) = .word s.h[i])
      ∧ (∀ j : Fin 128, s.readPort (.blk j) = .byte (s.mem.read .blk j.val))
      ∧ (∀ j : Fin 2, s.readPort (.t j) = .word s.t[j])
      ∧ s.readPort .flag = .bit s.flag
      ∧ (∀ j : Fin 64, s.readPort (.obuf j) = .byte (s.mem.read .obuf j.val))
      ∧ s.readPort .status = .u32 s.status ∧ s.readPort .errInfo = .u32 s.errInfo)

/-- R165, R73, R166: with nothing in progress, ISSUE of 0x01 or 0x02 sets OP and the ST field to BUSY and changes nothing else (ERR and
every other bit of STATUS as before), and every other code changes nothing at all; while ST = BUSY the issue has no step. -/
def Obligations.CommandIssue : Prop :=
  ∀ (c : Byte) (s : State),
    (s.busy = false → c = 0x01#8 ∨ c = 0x02#8 → ∃ t, hostMove (.issue c) s = .next t
      ∧ t = { s with status := t.status, op := if c = 0x01#8 then .decode else .compress }
      ∧ t.status.extractLsb' 0 2 = 1#2 ∧ t.status.extractLsb' 2 30 = s.status.extractLsb' 2 30)
    ∧ (s.busy = false → c ≠ 0x01#8 → c ≠ 0x02#8 → hostMove (.issue c) s = .next s)
    ∧ (s.busy = true → hostMove (.issue c) s = .next s)

/-- R166, R167: while ST = BUSY a WR move or ISSUE is held: the step is the engine's COMPLETE, and the move still waits, unchanged, in
the state it leads to, where ST is no longer BUSY. (A RESET that arrives while the host waits stands in the list before the move it waits
at, and is not this case: notes/assumptions/13.md.) -/
def Obligations.BusyHold : Prop :=
  ∀ (mv : HostMove) (rest : List HostMove) (s : State), s.busy = true → s.op ≠ .none → s.pending = mv :: rest →
    heldMove mv = true →
    ∃ t, step s = .next t ∧ engineStep s = .next t ∧ t.pending = mv :: rest ∧ t.busy = false ∧ t.hostEnabled = true

/-- R62, R165, R167: what a command sees. From a state with nothing in progress whose host issues a command and then has no move that
could come between (none at all, or one that is held), the second step is the operation, and it works on the input and operand registers
that the issue found. (No RESET arrives in between: notes/assumptions/13.md.) -/
def Obligations.CommandSeesEarlierWrites : Prop :=
  ∀ (c : Byte) (rest : List HostMove) (s : State), s.busy = false → s.pending = .issue c :: rest →
    c = 0x01#8 ∨ c = 0x02#8 → (∀ mv ∈ rest.head?, heldMove mv = true) →
    ∃ t u : State, step s = .next t ∧ step t = .next u
      ∧ exec (if c = 0x01#8 then .decode else .compress) t = .next u
      ∧ s.SameInputs t ∧ u.busy = false ∧ u.pending = rest

/-- R63, R164, R205: a step that leaves ST = BUSY as it was changes no input or operand register, and OBUF, ERR and ERR_INFO still show the
previous command; only the host's own fields move on. (That V, M and R stay too, while the operation is one completion step, is this
model's choice, notes/assumptions/1.md.) -/
def Obligations.NothingChangesWhileBusy : Prop :=
  ∀ s t : State, s.busy = true → step s = .next t → t.busy = true →
    t = { s with pending := t.pending, received := t.received, turns := t.turns }

/-- R160: no host move but RESET changes OBUF, ERR_INFO, the ERR field, V, M or R, and none but RESET and ISSUE changes OP or ST.
(What V, M and R hold between operations is this model's choice, notes/assumptions/1.md.) -/
def Obligations.HostCannotWriteResults : Prop :=
  ∀ (mv : HostMove) (s t : State), mv ≠ .reset → hostMove mv s = .next t →
    (∀ j, t.mem.read .obuf j = s.mem.read .obuf j)
    ∧ t.errInfo = s.errInfo ∧ t.err = s.err ∧ s.SameHidden t
    ∧ ((∀ c, mv ≠ .issue c) → t.op = s.op ∧ t.status = s.status)

/-- R28: OBUF keeps its value until the next COMPRESS completes or reset. Any step leaves it as it was, or is the completion of a COMPRESS
(all 64 bytes and the status in one step), or is a RESET (all zero). -/
def Obligations.OnlyCompletionPublishes : Prop :=
  ∀ s t : State, step s = .next t →
    (∀ j, t.mem.read .obuf j = s.mem.read .obuf j)
    ∨ (s.busy = true ∧ s.op = .compress ∧ t.status = 0x00000002#32
        ∧ ∀ (i : Fin 8) (k : Nat), k < 8 →
            t.mem.read .obuf (8 * i.val + k) = ((compressF s.operands)[i]).extractLsb' (8 * k) 8)
    ∨ (∃ rest, s.pending = .reset :: rest ∧ ∀ j, t.mem.read .obuf j = 0x00#8)

/-- R38, R169, R200: RESET, from every state, puts every register whose reset value the spec gives to that value in one step, held or not.
(V, M and R are unspecified after it and are not named here. The host agent is no register.) -/
def Obligations.ResetRegisters : Prop :=
  ∀ s : State, ∃ t, hostMove .reset s = .next t
    ∧ (∀ sp a, t.mem.read sp a = 0x00#8)
    ∧ t.ilen = 0#32 ∧ t.rounds = 0#32 ∧ (∀ i : Fin 8, t.h[i] = 0#64) ∧ (∀ j : Fin 2, t.t[j] = 0#64) ∧ t.flag = false
    ∧ t.status = 0#32 ∧ t.errInfo = 0#32 ∧ t.op = .none ∧ s.SameHost t

/-- R201: a reset while ST = BUSY abandons the operation: the step to which the host's turn falls publishes nothing (OBUF is zero, the
operand registers ROUNDS, H, BLK, T and FLAG, which a DECODE would have written, are zero), OP is clear and ST is IDLE, so that COMPLETE
is disabled and a held move is enabled. (`turns`: notes/assumptions/2.md.) -/
def Obligations.ResetAbandonsOperation : Prop :=
  ∀ (mv : HostMove) (rest : List HostMove) (ts : List Agent) (s : State),
    s.busy = true → s.pending = .reset :: mv :: rest → s.turns = .host :: ts →
    ∃ t, step s = .next t ∧ t.busy = false ∧ t.op = .none ∧ t.st = 0#2
      ∧ (∀ j, t.mem.read .obuf j = 0x00#8)
      ∧ t.rounds = 0#32 ∧ (∀ i : Fin 8, t.h[i] = 0#64) ∧ (∀ j, t.mem.read .blk j = 0x00#8)
      ∧ (∀ j : Fin 2, t.t[j] = 0#64) ∧ t.flag = false
      ∧ t.hostEnabled = true ∧ step t = hostMove mv { t with pending := rest }

/-- R168: WAIT reads STATUS until ST is not BUSY. With nothing in progress it reads once and is done, and what it reads shows OK or ERR
unless ST is IDLE; on the host's turn while ST = BUSY it reads BUSY and stays the host's next move.
(`turns`: notes/assumptions/2.md.) -/
def Obligations.WaitPolls : Prop :=
  ∀ (rest : List HostMove) (s : State), s.pending = .wait :: rest →
    (s.busy = false →
      step s = .next { s with pending := rest, received := s.received ++ [.u32 s.status] }
      ∧ s.status.extractLsb' 0 2 ≠ 1#2
      ∧ (s.st ≠ 0#2 → s.st = 2#2 ∨ s.st = 3#2))
    ∧ (∀ ts, s.busy = true → s.turns = .host :: ts →
      step s = .next { s with received := s.received ++ [.u32 s.status], turns := ts } ∧ s.status.extractLsb' 0 2 = 1#2)

/-! ## The machine -/

/-- A step runs the decoded instruction (R88, R165, R167). Where the bytes of an item decode to an instruction, the step of the state in
which it is placed is `exec` of that instruction: for a command, on the state its issue leaves (R165, R167); for a frame, on the state
with nothing in progress; for a result frame, on the state itself. How an item is placed is this model's (notes/assumptions/6.md). -/
def Obligations.StepRunsDecoded : Prop :=
  ∀ (fmt : Format) (bytes : List Byte) (i : Instr) (s : State), decode fmt bytes = .ok i →
    step (s.withFetchBytes fmt bytes) =
      exec i
        (match fmt with
          | .cmd8 => s.startOperation (operationOf i)
          | .frame213 => s.notBusy
          | .result64 => s)

/-- R61, R167, R194: who moves. The engine is enabled exactly when ST = BUSY and performs the operation OP names; with no move of the host
enabled the step is the engine's; with ST not BUSY it is the host's next move, and with no move at all every register keeps its
value. Where both are enabled the model's own `turns` decides, and the engine moves when it is empty (notes/assumptions/2.md). -/
def Obligations.AgentsTakeTurns : Prop :=
  ∀ s : State,
    (s.busy = false → s.pending = [] → step s = .next s)
    ∧ (∀ mv rest, s.busy = false → s.pending = mv :: rest → step s = hostMove mv { s with pending := rest })
    ∧ (s.busy = true → s.hostEnabled = false → s.op = .decode → step s = exec .decode s)
    ∧ (s.busy = true → s.hostEnabled = false → s.op = .compress → step s = exec .compress s)
    ∧ (s.busy = true → s.hostEnabled = true → s.turns = [] → s.op = .decode → step s = exec .decode s)
    ∧ (s.busy = true → s.hostEnabled = true → s.turns = [] → s.op = .compress → step s = exec .compress s)
    ∧ (∀ mv rest ts, s.busy = true → s.pending = mv :: rest → heldMove mv = false → s.turns = .host :: ts →
        step s = hostMove mv { s with pending := rest, turns := ts })
    ∧ (∀ ts, s.busy = true → s.hostEnabled = true → s.turns = .engine :: ts → step s = engineStep { s with turns := ts })

/-- The reset state meets the invariant (R29, R34, R38). -/
def Obligations.ResetMeetsInvariant : Prop := State.reset.Inv

/-- R29, R34, R83, R84: the invariant of every reachable state is kept by every step, from every state that meets it: the STATUS fields
stay legal and agree with ERR_INFO, OP = 0 exactly when ST is not BUSY, the reserved bits stay 0, OBUF is zero while ST = IDLE, and the
buffers keep their canonical form. -/
def Obligations.StepKeepsInvariant : Prop :=
  ∀ s t : State, s.Inv → step s = .next t → t.Inv

/-- R83: the values of STATUS a host can ever read are the seven of the table. (`StepKeepsInvariant` carries the invariant along every
run.) -/
def Obligations.StatusHasSevenValues : Prop :=
  ∀ s : State, s.Inv →
    s.status ∈ [0x00000000#32, 0x00000001#32, 0x00000002#32, 0x00000005#32, 0x00000007#32, 0x00000009#32, 0x0000000B#32]

/-- R106, R121, R180: from a state that meets the invariant, with a host whose moves are well formed, no step faults or is refused, and the
host's remaining moves stay well formed. -/
def Obligations.StepNeverStops : Prop :=
  ∀ s : State, s.Inv → s.hostWellFormed = true → ∃ t : State, step s = .next t ∧ t.hostWellFormed = true

/-- R209, R140: every operation completes. From any state with an operation in progress and a host that makes no RESET, whatever turns
are written down, after at most one step more than there are turns the operation is complete, and the registers are those its one
completion step gives: nothing the host read in between matters. (A RESET the platform asserts is one of the host's moves here,
notes/assumptions/13.md. That the engine moves once the written turns are used up is how
this model keeps R209's weak fairness, notes/assumptions/2.md.) -/
def Obligations.OperationCompletes : Prop :=
  ∀ s : State, s.busy = true → s.op ≠ .none → s.hostWellFormed = true → (∀ mv ∈ s.pending, mv ≠ .reset) →
    ∃ (n : Nat) (i : Instr) (t u : State), n ≤ s.turns.length + 1
      ∧ instrOfOperation s.op = some i ∧ exec i s = .next u
      ∧ runSteps n s = .next t ∧ t.busy = false
      ∧ t = { u with pending := t.pending, received := t.received, turns := t.turns }

/-- R40, R140, R192: instances share nothing. A step of instance `k` leaves every other instance as it was, and what it does to instance
`k` depends on instance `k` alone. -/
def Obligations.InstancesShareNothing : Prop :=
  ∀ (p q : Platform) (k : Nat) (s t : State) (p' : Platform),
    p.cores[k]? = some s → q.cores[k]? = some s → p.stepAt k = .next p' → step s = .next t →
    p'.cores[k]? = some t
    ∧ (∀ j, j ≠ k → p'.cores[j]? = p.cores[j]?)
    ∧ ∃ q' : Platform, q.stepAt k = .next q' ∧ q'.cores[k]? = some t
end

