-- ==== Sys2Proof/Laws/Codec.lean ====
section
/-! SUPPORT. The byte-order codecs undo each other, byte by byte (spec/00_scope.md R13, R14). -/

namespace Sys2Proof.Machine

/-- Byte `k` of the word that `le64` assembles is byte `a + k` of the view. -/
theorem leByte_le64 (f : Nat → Byte) (a : Nat) (k : Nat) (hk : k < 8) : leByte (le64 f a) k = f (a + k) := by
  apply BitVec.eq_of_getLsbD_eq
  intro i hi
  obtain rfl | rfl | rfl | rfl | rfl | rfl | rfl | rfl :
      k = 0 ∨ k = 1 ∨ k = 2 ∨ k = 3 ∨ k = 4 ∨ k = 5 ∨ k = 6 ∨ k = 7 := by omega
  all_goals
    simp only [leByte, le64, BitVec.getLsbD_extractLsb', BitVec.getLsbD_append, hi, decide_true, Bool.true_and]
    repeat' split
    all_goals first
      | (exfalso; omega)
      | (congr 1; omega)

/-- A word assembled from its own bytes is the word. -/
theorem le64_leByte (f : Nat → Byte) (a : Nat) (w : Word) (h : ∀ k, k < 8 → f (a + k) = leByte w k) : le64 f a = w := by
  apply BitVec.eq_of_getLsbD_eq
  intro i hi
  have h0 := h 0 (by omega)
  rw [Nat.add_zero] at h0
  simp only [le64, BitVec.getLsbD_append, h 1 (by omega), h 2 (by omega), h 3 (by omega), h 4 (by omega), h 5 (by omega),
    h 6 (by omega), h 7 (by omega), h0, leByte, BitVec.getLsbD_extractLsb']
  repeat' split
  all_goals
    rw [decide_eq_true (by omega), Bool.true_and]
    congr 1
    omega

/-- Byte `k` of the round count that `be32` assembles is byte `a + k` of the view. -/
theorem beByte_be32 (f : Nat → Byte) (a : Nat) (k : Nat) (hk : k < 4) : beByte (be32 f a) k = f (a + k) := by
  apply BitVec.eq_of_getLsbD_eq
  intro i hi
  obtain rfl | rfl | rfl | rfl : k = 0 ∨ k = 1 ∨ k = 2 ∨ k = 3 := by omega
  all_goals
    simp only [beByte, be32, BitVec.getLsbD_extractLsb', BitVec.getLsbD_append, hi, decide_true, Bool.true_and]
    repeat' split
    all_goals first
      | (exfalso; omega)
      | (congr 1; omega)

/-- A round count assembled from its own bytes is the round count. -/
theorem be32_beByte (f : Nat → Byte) (a : Nat) (n : U32) (h : ∀ k, k < 4 → f (a + k) = beByte n k) : be32 f a = n := by
  apply BitVec.eq_of_getLsbD_eq
  intro i hi
  have h0 := h 0 (by omega)
  rw [Nat.add_zero] at h0
  simp only [be32, BitVec.getLsbD_append, h 1 (by omega), h 2 (by omega), h 3 (by omega), h0, beByte,
    BitVec.getLsbD_extractLsb']
  repeat' split
  all_goals
    rw [decide_eq_true (by omega), Bool.true_and]
    congr 1
    omega

/-- Concatenation as arithmetic: `a || b`, `a` the more significant part (R10). -/
theorem toNat_append_add {m n : Nat} (x : BitVec m) (y : BitVec n) : (x ++ y).toNat = x.toNat * 2 ^ n + y.toNat := by
  rw [BitVec.toNat_append, ← Nat.shiftLeft_add_eq_or_of_lt y.isLt, Nat.shiftLeft_eq]

/-- `LE64` as the sum of R13. -/
theorem le64_toNat (f : Nat → Byte) (a : Nat) : (le64 f a).toNat =
    (f a).toNat + (f (a + 1)).toNat * 2 ^ 8 + (f (a + 2)).toNat * 2 ^ 16 + (f (a + 3)).toNat * 2 ^ 24
      + (f (a + 4)).toNat * 2 ^ 32 + (f (a + 5)).toNat * 2 ^ 40 + (f (a + 6)).toNat * 2 ^ 48 + (f (a + 7)).toNat * 2 ^ 56 := by
  simp only [le64, toNat_append_add]
  ring

/-- `BE32` as the sum of R14. -/
theorem be32_toNat (f : Nat → Byte) (a : Nat) : (be32 f a).toNat =
    (f a).toNat * 2 ^ 24 + (f (a + 1)).toNat * 2 ^ 16 + (f (a + 2)).toNat * 2 ^ 8 + (f (a + 3)).toNat := by
  simp only [be32, toNat_append_add]
  ring

/-- `LE64` sees only its 8 bytes. -/
theorem le64_congr {f g : Nat → Byte} {a b : Nat} (h : ∀ k, k < 8 → f (a + k) = g (b + k)) : le64 f a = le64 g b := by
  have h0 := h 0 (by omega)
  rw [Nat.add_zero, Nat.add_zero] at h0
  simp only [le64, h0, h 1 (by omega), h 2 (by omega), h 3 (by omega), h 4 (by omega), h 5 (by omega), h 6 (by omega),
    h 7 (by omega)]

/-- `BE32` sees only its 4 bytes. -/
theorem be32_congr {f g : Nat → Byte} {a b : Nat} (h : ∀ k, k < 4 → f (a + k) = g (b + k)) : be32 f a = be32 g b := by
  have h0 := h 0 (by omega)
  rw [Nat.add_zero, Nat.add_zero] at h0
  simp only [be32, h0, h 1 (by omega), h 2 (by omega), h 3 (by omega)]

@[simp] theorem length_bytesOf (f : Nat → Byte) (n : Nat) : (bytesOf f n).length = n := by simp [bytesOf]

theorem getElem_bytesOf (f : Nat → Byte) (n i : Nat) (h : i < (bytesOf f n).length) : (bytesOf f n)[i] = f i := by
  simp [bytesOf]

/-- The view of the first `n` bytes of a view agrees with it below `n`. -/
theorem listView_bytesOf (f : Nat → Byte) (n i : Nat) (h : i < n) : listView (bytesOf f n) i = f i := by
  simp [listView, bytesOf, h]

@[simp] theorem listView_cons_zero (b : Byte) (bs : List Byte) : listView (b :: bs) 0 = b := rfl

@[simp] theorem listView_cons_succ (b : Byte) (bs : List Byte) (i : Nat) : listView (b :: bs) (i + 1) = listView bs i := rfl

/-- A sequence is the bytes of its own view. -/
theorem bytesOf_listView (bs : List Byte) : bytesOf (listView bs) bs.length = bs := by
  apply List.ext_getElem (by simp)
  intro i h1 h2
  simp [getElem_bytesOf, listView, h2]

/-- Two views that agree below `n` have the same first `n` bytes. -/
theorem bytesOf_congr {f g : Nat → Byte} {n : Nat} (h : ∀ i, i < n → f i = g i) : bytesOf f n = bytesOf g n := by
  apply List.ext_getElem (by simp)
  intro i h1 h2
  simp only [getElem_bytesOf]
  exact h i (by simpa using h1)

/-- The first bytes of a view, in two runs. -/
theorem bytesOf_add (f : Nat → Byte) (m n : Nat) : bytesOf f (m + n) = bytesOf f m ++ bytesOf (fun i => f (m + i)) n := by
  simp [bytesOf, List.range_add]

/-- A byte vector is the bytes of its view. -/
theorem bytesOf_vecView {n : Nat} (v : Vector Byte n) : bytesOf (vecView v) n = v.toList := by
  apply List.ext_getElem (by simp)
  intro i h1 h2
  have hi : i < n := by simpa using h1
  simp [getElem_bytesOf, vecView, hi]

/-- `toLE64` of words one after another, as one byte view. -/
theorem flatMap_toLE64 (ws : List Word) :
    ws.flatMap toLE64 = bytesOf (fun i => leByte (ws.getD (i / 8) 0) (i % 8)) (8 * ws.length) := by
  induction ws with
  | nil => rfl
  | cons w ws ih =>
    rw [List.flatMap_cons, ih, List.length_cons, show 8 * (ws.length + 1) = 8 + 8 * ws.length by omega, bytesOf_add]
    refine congrArg₂ (· ++ ·) ?_ ?_
    · exact bytesOf_congr fun i hi => by
        rw [Nat.div_eq_of_lt hi, Nat.mod_eq_of_lt hi]
        rfl
    · exact bytesOf_congr fun i _ => by
        rw [show (8 + i) / 8 = i / 8 + 1 by omega, show (8 + i) % 8 = i % 8 by omega]
        simp

/-- A word vector laid out in ascending index order is `toLE64` of its words one after another (R53). -/
theorem bytesOf_wordsView {n : Nat} (v : Vector Word n) : bytesOf (wordsView v) (8 * n) = v.toList.flatMap toLE64 := by
  rw [flatMap_toLE64, Vector.length_toList]
  exact bytesOf_congr fun i hi => by
    have h : i / 8 < n := by omega
    simp [wordsView, h]

theorem vecView_lt {n : Nat} (v : Vector Byte n) (i : Nat) (h : i < n) : vecView v i = v[i] := by simp [vecView, h]

theorem wordsView_lt {n : Nat} (v : Vector Word n) (i k : Nat) (hi : i < n) (hk : k < 8) :
    wordsView v (8 * i + k) = leByte v[i] k := by
  have h1 : (8 * i + k) / 8 = i := by omega
  have h2 : (8 * i + k) % 8 = k := by omega
  simp [wordsView, h1, h2, hi]

end Sys2Proof.Machine
end

