-- ==== Sys2Proof/Laws/Frame.lean ====
section
/-! SUPPORT. Parsing a frame and laying it out undo each other, field by field (spec/30_encoding.md R74 to R82). -/

namespace Sys2Proof.Machine

/-- A frame is determined by its 213 bytes: parsing sees nothing else. -/
theorem parseFrame_congr {f g : Nat → Byte} (h : ∀ i, i < 213 → f i = g i) : parseFrame f = parseFrame g := by
  simp only [parseFrame, Frame.mk.injEq]
  refine ⟨be32_congr fun k hk => h _ (by omega), ?_, ?_, ?_, h _ (by omega)⟩
  · exact congrArg Vector.ofFn (funext fun i => le64_congr fun k hk => h _ (by omega))
  · exact congrArg Vector.ofFn (funext fun j => h _ (by omega))
  · exact congrArg Vector.ofFn (funext fun j => le64_congr fun k hk => h _ (by omega))

/-- Parsing the layout of a frame gives the frame. -/
theorem parseFrame_frameByte (x : Frame) : parseFrame (frameByte x) = x := by
  cases x with
  | mk rounds h block t flagByte =>
    simp only [parseFrame, Frame.mk.injEq]
    refine ⟨?_, ?_, ?_, ?_, rfl⟩
    · exact be32_beByte _ _ _ fun k hk => by simp [frameByte, hk]
    · ext1 i hi
      rw [Vector.getElem_ofFn]
      refine le64_leByte _ _ _ fun k hk => ?_
      simp only [frameByte]
      rw [if_neg (by omega), if_pos (by omega), show 4 + 8 * i + k - 4 = 8 * i + k by omega, wordsView_lt _ _ _ hi hk]
    · ext1 j hj
      rw [Vector.getElem_ofFn]
      simp only [frameByte]
      rw [if_neg (by omega), if_neg (by omega), if_pos (by omega), Nat.add_sub_cancel_left, vecView_lt _ _ hj]
    · ext1 j hj
      rw [Vector.getElem_ofFn]
      refine le64_leByte _ _ _ fun k hk => ?_
      simp only [frameByte]
      rw [if_neg (by omega), if_neg (by omega), if_neg (by omega), if_pos (by omega),
        show 196 + 8 * j + k - 196 = 8 * j + k by omega, wordsView_lt _ _ _ hj hk]

/-- Laying out a parsed frame gives its bytes back. -/
theorem frameByte_parseFrame (f : Nat → Byte) (i : Nat) (hi : i < 213) : frameByte (parseFrame f) i = f i := by
  simp only [frameByte]
  split
  · simpa [parseFrame] using beByte_be32 f 0 i (by omega)
  · split
    · have hq : (i - 4) / 8 < 8 := by omega
      simp only [wordsView, hq, ↓reduceDIte, parseFrame, Vector.getElem_ofFn]
      rw [leByte_le64 f _ _ (by omega), show 4 + 8 * ((i - 4) / 8) + (i - 4) % 8 = i by omega]
    · split
      · rw [vecView_lt _ _ (by omega)]
        simp only [parseFrame, Vector.getElem_ofFn]
        rw [Nat.add_sub_of_le (by omega)]
      · split
        · have hq : (i - 196) / 8 < 2 := by omega
          simp only [wordsView, hq, ↓reduceDIte, parseFrame, Vector.getElem_ofFn]
          rw [leByte_le64 f _ _ (by omega), show 196 + 8 * ((i - 196) / 8) + (i - 196) % 8 = i by omega]
        · rw [show i = 212 by omega]
          rfl

@[simp] theorem length_frameBytes (x : Frame) : (frameBytes x).length = 213 := length_bytesOf ..

@[simp] theorem length_resultBytes (res : Vector Word 8) : (resultBytes res).length = 64 := length_bytesOf ..

theorem listView_frameBytes (x : Frame) (i : Nat) (hi : i < 213) : listView (frameBytes x) i = frameByte x i :=
  listView_bytesOf _ _ _ hi

theorem listView_resultBytes (res : Vector Word 8) (i : Nat) (hi : i < 64) :
    listView (resultBytes res) i = wordsView res i := listView_bytesOf _ _ _ hi

/-- Parsing the bytes of a frame gives the frame. -/
theorem parseFrame_frameBytes (x : Frame) : parseFrame (listView (frameBytes x)) = x := by
  rw [parseFrame_congr (listView_frameBytes x), parseFrame_frameByte]

/-- The bytes of the frame that a sequence of 213 bytes parses to are the sequence. -/
theorem frameBytes_parseFrame (bs : List Byte) (h : bs.length = 213) : frameBytes (parseFrame (listView bs)) = bs := by
  rw [frameBytes, bytesOf_congr (frameByte_parseFrame (listView bs)), ← h, bytesOf_listView]

/-- Parsing the bytes of a result frame gives its words. -/
theorem parseResult_of_view {f : Nat → Byte} (res : Vector Word 8) (h : ∀ i, i < 64 → f i = wordsView res i) :
    parseResult f = res := by
  ext1 i hi
  simp only [parseResult, Vector.getElem_ofFn]
  exact le64_leByte _ _ _ fun k hk => by rw [h _ (by omega), wordsView_lt _ _ _ hi hk]

/-- The layout of R74 is the concatenation of R81. -/
theorem frameBytes_eq_append (x : Frame) : frameBytes x =
    toBE32 x.rounds ++ x.h.toList.flatMap toLE64 ++ x.block.toList ++ x.t.toList.flatMap toLE64 ++ [x.flagByte] := by
  rw [frameBytes, show 213 = 4 + 8 * 8 + 128 + 8 * 2 + 1 from rfl, bytesOf_add, bytesOf_add, bytesOf_add, bytesOf_add,
    ← bytesOf_wordsView, ← bytesOf_wordsView, ← bytesOf_vecView]
  refine congrArg₂ (· ++ ·) (congrArg₂ (· ++ ·) (congrArg₂ (· ++ ·) (congrArg₂ (· ++ ·) ?_ ?_) ?_) ?_) rfl
  · exact bytesOf_congr fun i hi => by simp [frameByte, hi]
  · exact bytesOf_congr fun i hi => by
      simp only [frameByte]
      rw [if_neg (by omega), if_pos (by omega), Nat.add_sub_cancel_left]
  · exact bytesOf_congr fun i hi => by
      simp only [frameByte]
      rw [if_neg (by omega), if_neg (by omega), if_pos (by omega), show 4 + 8 * 8 + i - 68 = i by omega]
  · exact bytesOf_congr fun i hi => by
      simp only [frameByte]
      rw [if_neg (by omega), if_neg (by omega), if_neg (by omega), if_pos (by omega),
        show 4 + 8 * 8 + 128 + i - 196 = i by omega]

theorem toOperands_toFrame (x : Operands) : x.toFrame.toOperands = x := by
  cases x with
  | mk rounds h block t flag => cases flag <;> rfl

theorem toFrame_wellFormed (x : Operands) : x.toFrame.wellFormed = true := by
  cases x with
  | mk rounds h block t flag => cases flag <;> rfl

/-- A legal frame is the frame of the operands it carries. -/
theorem toFrame_toOperands (x : Frame) (h : x.wellFormed = true) : x.toOperands.toFrame = x := by
  cases x with
  | mk rounds hh block t flagByte =>
    simp only [Frame.wellFormed, Bool.or_eq_true, beq_iff_eq] at h
    rcases h with h | h <;> subst h <;> rfl

end Sys2Proof.Machine
end

