-- ==== Sys2Proof/Laws/Memory.lean ====
section
/-! SUPPORT. What every memory operation does: a read after a write, everything it leaves alone, and the canonical form it keeps. -/

namespace Sys2Proof.Machine

theorem readCells_eraseCell (a a' : Nat) (m : Cells) :
    readCells (eraseCell a m) a' = if a' = a then unlisted else readCells m a' := by
  induction m with
  | nil => simp [eraseCell, readCells]
  | cons c rest ih =>
    obtain ⟨k, b⟩ := c
    by_cases hk : k = a
    · subst hk
      simp only [eraseCell, ↓reduceIte, ih, readCells]
      by_cases h : a' = k
      · simp [h]
      · simp [h, Ne.symm h]
    · simp only [eraseCell, hk, ↓reduceIte, readCells, ih]
      by_cases h : k = a'
      · subst h; simp [hk]
      · simp [h]

theorem readCells_insertCell_same (a : Nat) (b : Byte) (m : Cells) :
    readCells (insertCell a b (eraseCell a m)) a = b := by
  induction m with
  | nil => simp [eraseCell, insertCell, readCells]
  | cons c rest ih =>
    obtain ⟨k, c⟩ := c
    by_cases hk : k = a
    · simpa [eraseCell, hk] using ih
    · by_cases hlt : a < k
      · simp [eraseCell, hk, insertCell, hlt, readCells]
      · simp [eraseCell, hk, insertCell, hlt, readCells, ih]

theorem readCells_insertCell_other (a a' : Nat) (b : Byte) (m : Cells) (h : a' ≠ a) :
    readCells (insertCell a b m) a' = readCells m a' := by
  induction m with
  | nil => simp [insertCell, readCells, Ne.symm h]
  | cons c rest ih =>
    obtain ⟨k, c⟩ := c
    by_cases hlt : a < k
    · simp [insertCell, hlt, readCells, Ne.symm h]
    · simp [insertCell, hlt, readCells, ih]

/-- One byte read after one byte is written. -/
theorem readCells_writeCells (m : Cells) (a a' : Nat) (b : Byte) :
    readCells (writeCells m a b) a' = if a' = a then b else readCells m a' := by
  by_cases hb : b = unlisted
  · simp [writeCells, hb, readCells_eraseCell]
  · by_cases h : a' = a
    · subst h
      simp [writeCells, hb, readCells_insertCell_same a' b m]
    · simp [writeCells, hb, h, readCells_insertCell_other, readCells_eraseCell]

theorem cellsWf_mono {size lo lo' : Nat} {m : Cells} (h : cellsWf size lo m = true) (hle : lo' ≤ lo) :
    cellsWf size lo' m = true := by
  cases m with
  | nil => rfl
  | cons c rest =>
    simp only [cellsWf, Bool.and_eq_true, decide_eq_true_eq] at h ⊢
    exact ⟨⟨⟨by omega, h.1.1.2⟩, h.1.2⟩, h.2⟩

theorem cellsWf_eraseCell {size lo : Nat} (a : Nat) {m : Cells} (h : cellsWf size lo m = true) :
    cellsWf size lo (eraseCell a m) = true := by
  induction m generalizing lo with
  | nil => rfl
  | cons c rest ih =>
    obtain ⟨k, b⟩ := c
    simp only [cellsWf, Bool.and_eq_true, decide_eq_true_eq] at h
    by_cases hk : k = a
    · simp only [eraseCell, hk, ↓reduceIte]
      exact cellsWf_mono (ih h.2) (by omega)
    · simp only [eraseCell, hk, ↓reduceIte, cellsWf, Bool.and_eq_true, decide_eq_true_eq]
      exact ⟨h.1, ih h.2⟩

theorem cellsWf_insertCell {size lo a : Nat} {b : Byte} {m : Cells} (h : cellsWf size lo (eraseCell a m) = true)
    (hlo : lo ≤ a) (ha : a < size) (hb : b ≠ unlisted) : cellsWf size lo (insertCell a b (eraseCell a m)) = true := by
  induction m generalizing lo with
  | nil => simp [eraseCell, insertCell, cellsWf, hlo, ha, hb]
  | cons c rest ih =>
    obtain ⟨k, c⟩ := c
    by_cases hk : k = a
    · simp only [eraseCell, hk, ↓reduceIte] at h ⊢
      exact ih h hlo
    · simp only [eraseCell, hk, ↓reduceIte] at h ⊢
      have h' := h
      simp only [cellsWf, Bool.and_eq_true, decide_eq_true_eq] at h'
      by_cases hlt : a < k
      · simp only [insertCell, hlt, ↓reduceIte, cellsWf, Bool.and_eq_true, decide_eq_true_eq, bne_iff_ne]
        exact ⟨⟨⟨hlo, ha⟩, hb⟩, ⟨⟨⟨by omega, h'.1.1.2⟩, by simpa using h'.1.2⟩, h'.2⟩⟩
      · simp only [insertCell, hlt, ↓reduceIte, cellsWf, Bool.and_eq_true, decide_eq_true_eq]
        exact ⟨h'.1, ih h'.2 (by omega)⟩

/-- A write inside the buffer keeps its canonical form. -/
theorem cellsWf_writeCells {size a : Nat} {m : Cells} (b : Byte) (h : cellsWf size 0 m = true) (ha : a < size) :
    cellsWf size 0 (writeCells m a b) = true := by
  by_cases hb : b = unlisted
  · simpa [writeCells, hb] using cellsWf_eraseCell a h
  · simpa [writeCells, hb] using cellsWf_insertCell (cellsWf_eraseCell a h) (Nat.zero_le a) ha hb

/-- Nothing below `lo` is listed. -/
theorem readCells_below {size lo a : Nat} {m : Cells} (h : cellsWf size lo m = true) (ha : a < lo) :
    readCells m a = unlisted := by
  induction m generalizing lo with
  | nil => rfl
  | cons c rest ih =>
    obtain ⟨k, b⟩ := c
    simp only [cellsWf, Bool.and_eq_true, decide_eq_true_eq] at h
    simp only [readCells, show ¬ k = a by omega, ↓reduceIte]
    exact ih h.2 (by omega)

/-- Equal contents are equal data: two canonical cell lists that read alike are the same list. -/
theorem cells_ext {size lo : Nat} {m m' : Cells} (h : cellsWf size lo m = true) (h' : cellsWf size lo m' = true)
    (hr : ∀ a, readCells m a = readCells m' a) : m = m' := by
  induction m generalizing lo m' with
  | nil =>
    cases m' with
    | nil => rfl
    | cons c' rest' =>
      simp only [cellsWf, Bool.and_eq_true, bne_iff_ne] at h'
      have := hr c'.1
      simp only [readCells, ↓reduceIte] at this
      exact absurd this.symm h'.1.2
  | cons c rest ih =>
    obtain ⟨k, b⟩ := c
    simp only [cellsWf, Bool.and_eq_true, decide_eq_true_eq, bne_iff_ne] at h
    cases m' with
    | nil =>
      have := hr k
      simp only [readCells, ↓reduceIte] at this
      exact absurd this h.1.2
    | cons c' rest' =>
      obtain ⟨k', b'⟩ := c'
      simp only [cellsWf, Bool.and_eq_true, decide_eq_true_eq, bne_iff_ne] at h'
      have hkk : k = k' := by
        have e1 := hr k
        have e2 := hr k'
        simp only [readCells, ↓reduceIte] at e1 e2
        rcases Nat.lt_trichotomy k k' with hlt | heq | hgt
        · rw [if_neg (by omega), readCells_below h'.2 (by omega)] at e1
          exact absurd e1 h.1.2
        · exact heq
        · rw [if_neg (by omega), readCells_below h.2 (by omega)] at e2
          exact absurd e2.symm h'.1.2
      subst hkk
      have hbb : b = b' := by simpa [readCells] using hr k
      subst hbb
      have hrest : rest = rest' := ih h.2 h'.2 fun a => by
        by_cases ha : k = a
        · rw [readCells_below h.2 (by omega), readCells_below h'.2 (by omega)]
        · simpa [readCells, ha] using hr a
      rw [hrest]

@[simp] theorem cells_setCells (m : Memory) (sp sp' : Space) (c : Cells) :
    (m.setCells sp c).cells sp' = if sp' = sp then c else m.cells sp' := by
  cases sp <;> cases sp' <;> rfl

/-- The memory's canonical form, said of each buffer. -/
theorem Memory.wf_iff (m : Memory) : m.wf = true ↔ ∀ sp, cellsWf sp.size 0 (m.cells sp) = true := by
  constructor
  · intro h sp
    simp only [Memory.wf, Bool.and_eq_true] at h
    cases sp
    · exact h.1.1
    · exact h.1.2
    · exact h.2
  · intro h
    simp only [Memory.wf, Bool.and_eq_true]
    exact ⟨⟨h .ibuf, h .blk⟩, h .obuf⟩

/-- One byte read after one byte is written: the buffers share nothing (R39, R50). -/
theorem Memory.read_write (m : Memory) (sp sp' : Space) (a a' : Nat) (b : Byte) :
    (m.write sp a b).read sp' a' = if sp' = sp ∧ a' = a then b else m.read sp' a' := by
  by_cases hs : sp' = sp
  · subst hs
    simp [Memory.read, Memory.write, readCells_writeCells]
  · simp [Memory.read, Memory.write, hs]

theorem Memory.wf_write {m : Memory} (sp : Space) {a : Nat} (b : Byte) (h : m.wf = true) (ha : a < sp.size) :
    (m.write sp a b).wf = true := by
  rw [Memory.wf_iff] at h ⊢
  intro sp'
  by_cases hs : sp' = sp
  · subst hs
    simpa [Memory.write] using cellsWf_writeCells b (h sp') ha
  · simpa [Memory.write, hs] using h sp'

/-- What one byte reads after a byte sequence is written: its own byte inside the sequence, and as before everywhere else. -/
theorem Memory.read_writeBytes (m : Memory) (sp sp' : Space) (a a' : Nat) (bs : List Byte) :
    (m.writeBytes sp a bs).read sp' a' =
      if sp' = sp ∧ a ≤ a' ∧ a' < a + bs.length then listView bs (a' - a) else m.read sp' a' := by
  induction bs generalizing m a with
  | nil => simp only [Memory.writeBytes, List.length_nil]; rw [if_neg (by omega)]
  | cons b bs ih =>
    simp only [Memory.writeBytes, ih, Memory.read_write, List.length_cons]
    by_cases hs : sp' = sp
    · subst hs
      by_cases h1 : a' = a
      · subst h1
        rw [if_neg (by omega), if_pos ⟨rfl, rfl⟩, if_pos ⟨rfl, by omega, by omega⟩, Nat.sub_self]
        rfl
      · by_cases h2 : a + 1 ≤ a' ∧ a' < a + 1 + bs.length
        · rw [if_pos ⟨rfl, h2⟩, if_pos ⟨rfl, by omega, by omega⟩, show a' - a = (a' - (a + 1)) + 1 by omega]
          rfl
        · rw [if_neg (fun h => h2 h.2), if_neg (fun h => h1 h.2), if_neg (by omega)]
    · simp [hs]

theorem Memory.wf_writeBytes {m : Memory} (sp : Space) {a : Nat} {bs : List Byte} (h : m.wf = true)
    (ha : a + bs.length ≤ sp.size) : (m.writeBytes sp a bs).wf = true := by
  induction bs generalizing m a with
  | nil => exact h
  | cons b bs ih =>
    simp only [List.length_cons] at ha
    exact ih (Memory.wf_write sp b h (by omega)) (by omega)

/-- Equal contents are equal data, for the whole memory. -/
theorem Memory.ext_read {m m' : Memory} (h : m.wf = true) (h' : m'.wf = true) (hr : ∀ sp a, m.read sp a = m'.read sp a) :
    m = m' := by
  rw [Memory.wf_iff] at h h'
  have e : ∀ sp, m.cells sp = m'.cells sp := fun sp => cells_ext (h sp) (h' sp) (hr sp)
  cases m
  cases m'
  simp only [Memory.mk.injEq]
  exact ⟨e .ibuf, e .blk, e .obuf⟩

/-- Writing the same byte a second time changes nothing. -/
theorem Memory.write_twice {m : Memory} (sp : Space) {a : Nat} (b : Byte) (h : m.wf = true) (ha : a < sp.size) :
    (m.write sp a b).write sp a b = m.write sp a b :=
  Memory.ext_read (Memory.wf_write sp b (Memory.wf_write sp b h ha) ha) (Memory.wf_write sp b h ha) fun sp' a' => by
    simp only [Memory.read_write]
    split <;> rfl

/-- Writing the same byte sequence a second time changes nothing. -/
theorem Memory.writeBytes_twice {m : Memory} (sp : Space) {a : Nat} (bs : List Byte) (h : m.wf = true)
    (ha : a + bs.length ≤ sp.size) : (m.writeBytes sp a bs).writeBytes sp a bs = m.writeBytes sp a bs :=
  Memory.ext_read (Memory.wf_writeBytes sp (Memory.wf_writeBytes sp h ha) ha) (Memory.wf_writeBytes sp h ha) fun sp' a' => by
    simp only [Memory.read_writeBytes]
    split <;> rfl

@[simp] theorem Memory.reset_wf : Memory.reset.wf = true := rfl

@[simp] theorem Memory.read_reset (sp : Space) (a : Nat) : Memory.reset.read sp a = 0x00#8 := by
  cases sp <;> rfl

theorem Memory.length_readBytes (m : Memory) (sp : Space) (a n : Nat) : (m.readBytes sp a n).length = n := by
  simp [Memory.readBytes]

/-- The bytes read back after a whole buffer area is written. -/
theorem Memory.readBytes_writeBytes (m : Memory) (sp : Space) (a : Nat) (bs : List Byte) :
    (m.writeBytes sp a bs).readBytes sp a bs.length = bs := by
  have h : (m.writeBytes sp a bs).readBytes sp a bs.length = bytesOf (listView bs) bs.length :=
    bytesOf_congr fun i hi => by
      show (m.writeBytes sp a bs).read sp (a + i) = listView bs i
      rw [Memory.read_writeBytes, if_pos ⟨rfl, by omega, by omega⟩, Nat.add_sub_cancel_left]
  rw [h, bytesOf_listView]

end Sys2Proof.Machine
end

