-- ==== Sys2Proof/Laws/State.lean ====
section
/-! SUPPORT. One lemma per field of State per update, true by rfl, so that no later proof unfolds a record update. -/

namespace Sys2Proof.Machine

/-! The issue step's write of ST (R165). -/

@[simp] theorem State.setSt_mem (st : St) (s : State) : (s.setSt st).mem = s.mem := rfl
@[simp] theorem State.setSt_ilen (st : St) (s : State) : (s.setSt st).ilen = s.ilen := rfl
@[simp] theorem State.setSt_rounds (st : St) (s : State) : (s.setSt st).rounds = s.rounds := rfl
@[simp] theorem State.setSt_h (st : St) (s : State) : (s.setSt st).h = s.h := rfl
@[simp] theorem State.setSt_t (st : St) (s : State) : (s.setSt st).t = s.t := rfl
@[simp] theorem State.setSt_flag (st : St) (s : State) : (s.setSt st).flag = s.flag := rfl
@[simp] theorem State.setSt_status (st : St) (s : State) : (s.setSt st).status = s.status.extractLsb' 2 30 ++ stCode st := rfl
@[simp] theorem State.setSt_errInfo (st : St) (s : State) : (s.setSt st).errInfo = s.errInfo := rfl
@[simp] theorem State.setSt_op (st : St) (s : State) : (s.setSt st).op = s.op := rfl
@[simp] theorem State.setSt_v (st : St) (s : State) : (s.setSt st).v = s.v := rfl
@[simp] theorem State.setSt_m (st : St) (s : State) : (s.setSt st).m = s.m := rfl
@[simp] theorem State.setSt_r (st : St) (s : State) : (s.setSt st).r = s.r := rfl
@[simp] theorem State.setSt_pending (st : St) (s : State) : (s.setSt st).pending = s.pending := rfl
@[simp] theorem State.setSt_received (st : St) (s : State) : (s.setSt st).received = s.received := rfl
@[simp] theorem State.setSt_turns (st : St) (s : State) : (s.setSt st).turns = s.turns := rfl

/-! The completion step's write of the status (R29). -/

@[simp] theorem State.setOutcome_mem (e : BitVec 2) (st : St) (n : U32) (s : State) : (s.setOutcome e st n).mem = s.mem := rfl
@[simp] theorem State.setOutcome_ilen (e : BitVec 2) (st : St) (n : U32) (s : State) : (s.setOutcome e st n).ilen = s.ilen := rfl
@[simp] theorem State.setOutcome_rounds (e : BitVec 2) (st : St) (n : U32) (s : State) : (s.setOutcome e st n).rounds = s.rounds := rfl
@[simp] theorem State.setOutcome_h (e : BitVec 2) (st : St) (n : U32) (s : State) : (s.setOutcome e st n).h = s.h := rfl
@[simp] theorem State.setOutcome_t (e : BitVec 2) (st : St) (n : U32) (s : State) : (s.setOutcome e st n).t = s.t := rfl
@[simp] theorem State.setOutcome_flag (e : BitVec 2) (st : St) (n : U32) (s : State) : (s.setOutcome e st n).flag = s.flag := rfl
@[simp] theorem State.setOutcome_status (e : BitVec 2) (st : St) (n : U32) (s : State) : (s.setOutcome e st n).status = statusWord e (stCode st) := rfl
@[simp] theorem State.setOutcome_errInfo (e : BitVec 2) (st : St) (n : U32) (s : State) : (s.setOutcome e st n).errInfo = n := rfl
@[simp] theorem State.setOutcome_op (e : BitVec 2) (st : St) (n : U32) (s : State) : (s.setOutcome e st n).op = .none := rfl
@[simp] theorem State.setOutcome_v (e : BitVec 2) (st : St) (n : U32) (s : State) : (s.setOutcome e st n).v = s.v := rfl
@[simp] theorem State.setOutcome_m (e : BitVec 2) (st : St) (n : U32) (s : State) : (s.setOutcome e st n).m = s.m := rfl
@[simp] theorem State.setOutcome_r (e : BitVec 2) (st : St) (n : U32) (s : State) : (s.setOutcome e st n).r = s.r := rfl
@[simp] theorem State.setOutcome_pending (e : BitVec 2) (st : St) (n : U32) (s : State) : (s.setOutcome e st n).pending = s.pending := rfl
@[simp] theorem State.setOutcome_received (e : BitVec 2) (st : St) (n : U32) (s : State) : (s.setOutcome e st n).received = s.received := rfl
@[simp] theorem State.setOutcome_turns (e : BitVec 2) (st : St) (n : U32) (s : State) : (s.setOutcome e st n).turns = s.turns := rfl

/-! Ending an operation without error (R104). -/

@[simp] theorem State.completeOk_mem (s : State) : (s.completeOk).mem = s.mem := rfl
@[simp] theorem State.completeOk_ilen (s : State) : (s.completeOk).ilen = s.ilen := rfl
@[simp] theorem State.completeOk_rounds (s : State) : (s.completeOk).rounds = s.rounds := rfl
@[simp] theorem State.completeOk_h (s : State) : (s.completeOk).h = s.h := rfl
@[simp] theorem State.completeOk_t (s : State) : (s.completeOk).t = s.t := rfl
@[simp] theorem State.completeOk_flag (s : State) : (s.completeOk).flag = s.flag := rfl
@[simp] theorem State.completeOk_status (s : State) : (s.completeOk).status = 0x00000002#32 :=
  show statusWord 0#2 (stCode .ok) = 0x00000002#32 by decide
@[simp] theorem State.completeOk_errInfo (s : State) : (s.completeOk).errInfo = 0#32 := rfl
@[simp] theorem State.completeOk_op (s : State) : (s.completeOk).op = .none := rfl
@[simp] theorem State.completeOk_v (s : State) : (s.completeOk).v = s.v := rfl
@[simp] theorem State.completeOk_m (s : State) : (s.completeOk).m = s.m := rfl
@[simp] theorem State.completeOk_r (s : State) : (s.completeOk).r = s.r := rfl
@[simp] theorem State.completeOk_pending (s : State) : (s.completeOk).pending = s.pending := rfl
@[simp] theorem State.completeOk_received (s : State) : (s.completeOk).received = s.received := rfl
@[simp] theorem State.completeOk_turns (s : State) : (s.completeOk).turns = s.turns := rfl

/-! Taking an error (R184). -/

@[simp] theorem State.raise_mem (e : DecodeError) (s : State) : (s.raise e).mem = s.mem := rfl
@[simp] theorem State.raise_ilen (e : DecodeError) (s : State) : (s.raise e).ilen = s.ilen := rfl
@[simp] theorem State.raise_rounds (e : DecodeError) (s : State) : (s.raise e).rounds = s.rounds := rfl
@[simp] theorem State.raise_h (e : DecodeError) (s : State) : (s.raise e).h = s.h := rfl
@[simp] theorem State.raise_t (e : DecodeError) (s : State) : (s.raise e).t = s.t := rfl
@[simp] theorem State.raise_flag (e : DecodeError) (s : State) : (s.raise e).flag = s.flag := rfl
@[simp] theorem State.raise_status (e : DecodeError) (s : State) : (s.raise e).status = statusWord (errCode e) (stCode .err) := rfl
@[simp] theorem State.raise_errInfo (e : DecodeError) (s : State) : (s.raise e).errInfo = errValue e := rfl
@[simp] theorem State.raise_op (e : DecodeError) (s : State) : (s.raise e).op = .none := rfl
@[simp] theorem State.raise_v (e : DecodeError) (s : State) : (s.raise e).v = s.v := rfl
@[simp] theorem State.raise_m (e : DecodeError) (s : State) : (s.raise e).m = s.m := rfl
@[simp] theorem State.raise_r (e : DecodeError) (s : State) : (s.raise e).r = s.r := rfl
@[simp] theorem State.raise_pending (e : DecodeError) (s : State) : (s.raise e).pending = s.pending := rfl
@[simp] theorem State.raise_received (e : DecodeError) (s : State) : (s.raise e).received = s.received := rfl
@[simp] theorem State.raise_turns (e : DecodeError) (s : State) : (s.raise e).turns = s.turns := rfl

/-! The issue step (R165). -/

@[simp] theorem State.startOperation_mem (o : Operation) (s : State) : (s.startOperation o).mem = s.mem := rfl
@[simp] theorem State.startOperation_ilen (o : Operation) (s : State) : (s.startOperation o).ilen = s.ilen := rfl
@[simp] theorem State.startOperation_rounds (o : Operation) (s : State) : (s.startOperation o).rounds = s.rounds := rfl
@[simp] theorem State.startOperation_h (o : Operation) (s : State) : (s.startOperation o).h = s.h := rfl
@[simp] theorem State.startOperation_t (o : Operation) (s : State) : (s.startOperation o).t = s.t := rfl
@[simp] theorem State.startOperation_flag (o : Operation) (s : State) : (s.startOperation o).flag = s.flag := rfl
@[simp] theorem State.startOperation_status (o : Operation) (s : State) : (s.startOperation o).status = s.status.extractLsb' 2 30 ++ stCode .busy := rfl
@[simp] theorem State.startOperation_errInfo (o : Operation) (s : State) : (s.startOperation o).errInfo = s.errInfo := rfl
@[simp] theorem State.startOperation_op (o : Operation) (s : State) : (s.startOperation o).op = o := rfl
@[simp] theorem State.startOperation_v (o : Operation) (s : State) : (s.startOperation o).v = s.v := rfl
@[simp] theorem State.startOperation_m (o : Operation) (s : State) : (s.startOperation o).m = s.m := rfl
@[simp] theorem State.startOperation_r (o : Operation) (s : State) : (s.startOperation o).r = s.r := rfl
@[simp] theorem State.startOperation_pending (o : Operation) (s : State) : (s.startOperation o).pending = s.pending := rfl
@[simp] theorem State.startOperation_received (o : Operation) (s : State) : (s.startOperation o).received = s.received := rfl
@[simp] theorem State.startOperation_turns (o : Operation) (s : State) : (s.startOperation o).turns = s.turns := rfl

/-! RESET (R200). -/

@[simp] theorem State.resetRegisters_mem (s : State) : (s.resetRegisters).mem = State.reset.mem := rfl
@[simp] theorem State.resetRegisters_ilen (s : State) : (s.resetRegisters).ilen = State.reset.ilen := rfl
@[simp] theorem State.resetRegisters_rounds (s : State) : (s.resetRegisters).rounds = State.reset.rounds := rfl
@[simp] theorem State.resetRegisters_h (s : State) : (s.resetRegisters).h = State.reset.h := rfl
@[simp] theorem State.resetRegisters_t (s : State) : (s.resetRegisters).t = State.reset.t := rfl
@[simp] theorem State.resetRegisters_flag (s : State) : (s.resetRegisters).flag = State.reset.flag := rfl
@[simp] theorem State.resetRegisters_status (s : State) : (s.resetRegisters).status = State.reset.status := rfl
@[simp] theorem State.resetRegisters_errInfo (s : State) : (s.resetRegisters).errInfo = State.reset.errInfo := rfl
@[simp] theorem State.resetRegisters_op (s : State) : (s.resetRegisters).op = State.reset.op := rfl
@[simp] theorem State.resetRegisters_v (s : State) : (s.resetRegisters).v = State.reset.v := rfl
@[simp] theorem State.resetRegisters_m (s : State) : (s.resetRegisters).m = State.reset.m := rfl
@[simp] theorem State.resetRegisters_r (s : State) : (s.resetRegisters).r = State.reset.r := rfl
@[simp] theorem State.resetRegisters_pending (s : State) : (s.resetRegisters).pending = s.pending := rfl
@[simp] theorem State.resetRegisters_received (s : State) : (s.resetRegisters).received = s.received := rfl
@[simp] theorem State.resetRegisters_turns (s : State) : (s.resetRegisters).turns = s.turns := rfl

/-! Handing values back (R164). -/

@[simp] theorem State.reply_mem (vs : List Reply) (s : State) : (s.reply vs).mem = s.mem := rfl
@[simp] theorem State.reply_ilen (vs : List Reply) (s : State) : (s.reply vs).ilen = s.ilen := rfl
@[simp] theorem State.reply_rounds (vs : List Reply) (s : State) : (s.reply vs).rounds = s.rounds := rfl
@[simp] theorem State.reply_h (vs : List Reply) (s : State) : (s.reply vs).h = s.h := rfl
@[simp] theorem State.reply_t (vs : List Reply) (s : State) : (s.reply vs).t = s.t := rfl
@[simp] theorem State.reply_flag (vs : List Reply) (s : State) : (s.reply vs).flag = s.flag := rfl
@[simp] theorem State.reply_status (vs : List Reply) (s : State) : (s.reply vs).status = s.status := rfl
@[simp] theorem State.reply_errInfo (vs : List Reply) (s : State) : (s.reply vs).errInfo = s.errInfo := rfl
@[simp] theorem State.reply_op (vs : List Reply) (s : State) : (s.reply vs).op = s.op := rfl
@[simp] theorem State.reply_v (vs : List Reply) (s : State) : (s.reply vs).v = s.v := rfl
@[simp] theorem State.reply_m (vs : List Reply) (s : State) : (s.reply vs).m = s.m := rfl
@[simp] theorem State.reply_r (vs : List Reply) (s : State) : (s.reply vs).r = s.r := rfl
@[simp] theorem State.reply_pending (vs : List Reply) (s : State) : (s.reply vs).pending = s.pending := rfl
@[simp] theorem State.reply_received (vs : List Reply) (s : State) : (s.reply vs).received = s.received ++ vs := rfl
@[simp] theorem State.reply_turns (vs : List Reply) (s : State) : (s.reply vs).turns = s.turns := rfl

/-! Presenting a byte sequence (R22). -/

@[simp] theorem State.loadSequence_mem (bs : List Byte) (s : State) : (s.loadSequence bs).mem = s.mem.writeBytes .ibuf 0 (bs.take 213) := rfl
@[simp] theorem State.loadSequence_ilen (bs : List Byte) (s : State) : (s.loadSequence bs).ilen = BitVec.ofNat 32 bs.length := rfl
@[simp] theorem State.loadSequence_rounds (bs : List Byte) (s : State) : (s.loadSequence bs).rounds = s.rounds := rfl
@[simp] theorem State.loadSequence_h (bs : List Byte) (s : State) : (s.loadSequence bs).h = s.h := rfl
@[simp] theorem State.loadSequence_t (bs : List Byte) (s : State) : (s.loadSequence bs).t = s.t := rfl
@[simp] theorem State.loadSequence_flag (bs : List Byte) (s : State) : (s.loadSequence bs).flag = s.flag := rfl
@[simp] theorem State.loadSequence_status (bs : List Byte) (s : State) : (s.loadSequence bs).status = s.status := rfl
@[simp] theorem State.loadSequence_errInfo (bs : List Byte) (s : State) : (s.loadSequence bs).errInfo = s.errInfo := rfl
@[simp] theorem State.loadSequence_op (bs : List Byte) (s : State) : (s.loadSequence bs).op = s.op := rfl
@[simp] theorem State.loadSequence_v (bs : List Byte) (s : State) : (s.loadSequence bs).v = s.v := rfl
@[simp] theorem State.loadSequence_m (bs : List Byte) (s : State) : (s.loadSequence bs).m = s.m := rfl
@[simp] theorem State.loadSequence_r (bs : List Byte) (s : State) : (s.loadSequence bs).r = s.r := rfl
@[simp] theorem State.loadSequence_pending (bs : List Byte) (s : State) : (s.loadSequence bs).pending = s.pending := rfl
@[simp] theorem State.loadSequence_received (bs : List Byte) (s : State) : (s.loadSequence bs).received = s.received := rfl
@[simp] theorem State.loadSequence_turns (bs : List Byte) (s : State) : (s.loadSequence bs).turns = s.turns := rfl

/-! Writing the five operand registers (R103). -/

@[simp] theorem State.setOperands_mem (x : Operands) (s : State) : (s.setOperands x).mem = s.mem.writeBytes .blk 0 x.block.toList := rfl
@[simp] theorem State.setOperands_ilen (x : Operands) (s : State) : (s.setOperands x).ilen = s.ilen := rfl
@[simp] theorem State.setOperands_rounds (x : Operands) (s : State) : (s.setOperands x).rounds = x.rounds := rfl
@[simp] theorem State.setOperands_h (x : Operands) (s : State) : (s.setOperands x).h = x.h := rfl
@[simp] theorem State.setOperands_t (x : Operands) (s : State) : (s.setOperands x).t = x.t := rfl
@[simp] theorem State.setOperands_flag (x : Operands) (s : State) : (s.setOperands x).flag = x.flag := rfl
@[simp] theorem State.setOperands_status (x : Operands) (s : State) : (s.setOperands x).status = s.status := rfl
@[simp] theorem State.setOperands_errInfo (x : Operands) (s : State) : (s.setOperands x).errInfo = s.errInfo := rfl
@[simp] theorem State.setOperands_op (x : Operands) (s : State) : (s.setOperands x).op = s.op := rfl
@[simp] theorem State.setOperands_v (x : Operands) (s : State) : (s.setOperands x).v = s.v := rfl
@[simp] theorem State.setOperands_m (x : Operands) (s : State) : (s.setOperands x).m = s.m := rfl
@[simp] theorem State.setOperands_r (x : Operands) (s : State) : (s.setOperands x).r = s.r := rfl
@[simp] theorem State.setOperands_pending (x : Operands) (s : State) : (s.setOperands x).pending = s.pending := rfl
@[simp] theorem State.setOperands_received (x : Operands) (s : State) : (s.setOperands x).received = s.received := rfl
@[simp] theorem State.setOperands_turns (x : Operands) (s : State) : (s.setOperands x).turns = s.turns := rfl

/-! The STATUS values of the two errors (R83). -/

theorem State.raise_lengthError (n : U32) (s : State) :
    s.raise (.lengthError n) = { s with status := 0x00000007#32, errInfo := n, op := .none } := by
  rw [State.raise, State.setOutcome, show statusWord (errCode (.lengthError n)) (stCode .err) = 0x00000007#32 from
    show statusWord 1#2 (stCode .err) = 0x00000007#32 by decide]
  rfl

theorem State.raise_flagError (b : Byte) (s : State) :
    s.raise (.flagError b) = { s with status := 0x0000000B#32, errInfo := b.setWidth 32, op := .none } := by
  rw [State.raise, State.setOutcome, show statusWord (errCode (.flagError b)) (stCode .err) = 0x0000000B#32 from
    show statusWord 2#2 (stCode .err) = 0x0000000B#32 by decide]
  rfl

/-! The busy hold (R166). -/

theorem State.unlessBusy_idle {f : State → State} {s : State} (h : s.busy = false) : s.unlessBusy f = f s := by
  simp [State.unlessBusy, h]

theorem State.unlessBusy_held {f : State → State} {s : State} (h : s.busy = true) : s.unlessBusy f = s := by
  simp [State.unlessBusy, h]

end Sys2Proof.Machine
end

