-- ==== Sys2Proof/Laws/Status.lean ====
section
/-! SUPPORT. The fields of STATUS after each update (spec/10_state.md R29, spec/30_encoding.md R83). -/

namespace Sys2Proof.Machine

theorem statusWord_st : ∀ e st : BitVec 2, (statusWord e st).extractLsb' 0 2 = st := by decide

theorem statusWord_err : ∀ e st : BitVec 2, (statusWord e st).extractLsb' 2 2 = e := by decide

theorem statusWord_reserved : ∀ e st : BitVec 2, (statusWord e st).extractLsb' 4 28 = 0#28 := by decide

/-- `busy` follows STATUS alone. -/
theorem State.busy_congr {s s' : State} (h : s.status = s'.status) : s.busy = s'.busy := by
  simp [State.busy, State.st, h]

/-- A held write that leaves STATUS alone and changes nothing when made again is idempotent, the busy hold included. -/
theorem State.unlessBusy_twice {f : State → State} {s : State} (hs : (f s).status = s.status) (hf : f (f s) = f s) :
    (s.unlessBusy f).unlessBusy f = s.unlessBusy f := by
  cases hb : s.busy with
  | true => rw [State.unlessBusy_held hb, State.unlessBusy_held hb]
  | false => rw [State.unlessBusy_idle hb, State.unlessBusy_idle ((State.busy_congr hs).trans hb), hf]

theorem State.busy_iff (s : State) : s.busy = true ↔ s.st = stCode .busy := by simp [State.busy]

theorem State.not_busy_iff (s : State) : s.busy = false ↔ s.st ≠ stCode .busy := by
  rw [← Bool.not_eq_true, State.busy_iff]

@[simp] theorem State.setOutcome_st (e : BitVec 2) (st : St) (n : U32) (s : State) : (s.setOutcome e st n).st = stCode st :=
  statusWord_st e (stCode st)

@[simp] theorem State.setOutcome_err (e : BitVec 2) (st : St) (n : U32) (s : State) : (s.setOutcome e st n).err = e :=
  statusWord_err e (stCode st)

@[simp] theorem State.completeOk_st (s : State) : s.completeOk.st = stCode .ok := State.setOutcome_st ..

@[simp] theorem State.completeOk_err (s : State) : s.completeOk.err = 0#2 := State.setOutcome_err ..

@[simp] theorem State.completeOk_busy (s : State) : s.completeOk.busy = false := by
  rw [State.not_busy_iff, State.completeOk_st]; decide

@[simp] theorem State.raise_st (e : DecodeError) (s : State) : (s.raise e).st = stCode .err := State.setOutcome_st ..

@[simp] theorem State.raise_err (e : DecodeError) (s : State) : (s.raise e).err = errCode e := State.setOutcome_err ..

@[simp] theorem State.raise_busy (e : DecodeError) (s : State) : (s.raise e).busy = false := by
  rw [State.not_busy_iff, State.raise_st]; decide

@[simp] theorem State.setSt_st (st : St) (s : State) : (s.setSt st).st = stCode st := by
  apply BitVec.eq_of_getLsbD_eq
  intro i hi
  simp only [State.st, State.setSt_status, BitVec.getLsbD_extractLsb', BitVec.getLsbD_append, hi, decide_true, Bool.true_and]
  rw [if_pos (by omega), Nat.zero_add]

@[simp] theorem State.setSt_err (st : St) (s : State) : (s.setSt st).err = s.err := by
  apply BitVec.eq_of_getLsbD_eq
  intro i hi
  simp only [State.err, State.setSt_status, BitVec.getLsbD_extractLsb', BitVec.getLsbD_append, hi, decide_true, Bool.true_and]
  rw [if_neg (by omega), show 2 + i - 2 = i by omega, decide_eq_true (by omega : i < 30), Bool.true_and]

theorem State.setSt_reserved (st : St) (s : State) :
    (s.setSt st).status.extractLsb' 4 28 = s.status.extractLsb' 4 28 := by
  apply BitVec.eq_of_getLsbD_eq
  intro i hi
  simp only [State.setSt_status, BitVec.getLsbD_extractLsb', BitVec.getLsbD_append, hi, decide_true, Bool.true_and]
  rw [if_neg (by omega), decide_eq_true (by omega : 4 + i - 2 < 30), Bool.true_and]
  congr 1
  omega

@[simp] theorem State.startOperation_st (o : Operation) (s : State) : (s.startOperation o).st = stCode .busy :=
  State.setSt_st .busy s

@[simp] theorem State.startOperation_err (o : Operation) (s : State) : (s.startOperation o).err = s.err :=
  State.setSt_err .busy s

@[simp] theorem State.startOperation_busy (o : Operation) (s : State) : (s.startOperation o).busy = true := by
  rw [State.busy_iff, State.startOperation_st]

/-- The issue of a command changes no bit of STATUS above the field ST (R165). -/
theorem State.startOperation_upper (o : Operation) (s : State) :
    (s.startOperation o).status.extractLsb' 2 30 = s.status.extractLsb' 2 30 := by
  apply BitVec.eq_of_getLsbD_eq
  intro i hi
  simp only [State.startOperation_status, BitVec.getLsbD_extractLsb', BitVec.getLsbD_append, hi, decide_true, Bool.true_and]
  rw [if_neg (by omega), decide_eq_true (by omega : 2 + i - 2 < 30), Bool.true_and, show 2 + (2 + i - 2) = 2 + i by omega]

theorem State.startOperation_reserved (o : Operation) (s : State) :
    (s.startOperation o).status.extractLsb' 4 28 = s.status.extractLsb' 4 28 := State.setSt_reserved .busy s

@[simp] theorem State.resetRegisters_busy (s : State) : s.resetRegisters.busy = false := rfl

@[simp] theorem State.reply_st (vs : List Reply) (s : State) : (s.reply vs).st = s.st := rfl

@[simp] theorem State.reply_err (vs : List Reply) (s : State) : (s.reply vs).err = s.err := rfl

@[simp] theorem State.reply_busy (vs : List Reply) (s : State) : (s.reply vs).busy = s.busy := rfl

end Sys2Proof.Machine
end

