-- ==== Sys2Proof/Laws/Exec.lean ====
section
/-! SUPPORT. One law per meaning: everything it can answer, for the proofs to cite instead of unfolding it. -/

namespace Sys2Proof.Machine

/-! The operand registers (R110). -/

@[simp] theorem State.operands_rounds (s : State) : s.operands.rounds = s.rounds := rfl

@[simp] theorem State.operands_h (s : State) : s.operands.h = s.h := rfl

@[simp] theorem State.operands_t (s : State) : s.operands.t = s.t := rfl

@[simp] theorem State.operands_flag (s : State) : s.operands.flag = s.flag := rfl

@[simp] theorem State.operands_block (s : State) (j : Nat) (hj : j < 128) : s.operands.block[j] = s.mem.read .blk j := by
  simp [State.operands]

/-- States whose operand registers read alike hold the same five-tuple. -/
theorem State.operands_congr {s s' : State} (hr : s.rounds = s'.rounds) (hh : s.h = s'.h)
    (hb : ∀ j, j < 128 → s.mem.read .blk j = s'.mem.read .blk j) (ht : s.t = s'.t) (hf : s.flag = s'.flag) :
    s.operands = s'.operands := by
  simp only [State.operands, Operands.mk.injEq]
  exact ⟨hr, hh, congrArg Vector.ofFn (funext fun j => hb j.val j.isLt), ht, hf⟩

/-- The operand registers read back as they were written. -/
theorem State.setOperands_operands (x : Operands) (s : State) : (s.setOperands x).operands = x := by
  cases x with
  | mk rounds h block t flag =>
    simp only [State.operands, State.setOperands, Operands.mk.injEq, true_and, and_true]
    ext1 j hj
    rw [Vector.getElem_ofFn, Memory.read_writeBytes, if_pos ⟨rfl, by omega, by simpa using hj⟩]
    simp [listView, hj]

/-- What `setOperands` leaves of the buffers: BLK's 128 bytes are the block's, and everything else is as before. -/
theorem State.read_setOperands (x : Operands) (s : State) (sp : Space) (a : Nat) :
    (s.setOperands x).mem.read sp a = if sp = .blk ∧ a < 128 then vecView x.block a else s.mem.read sp a := by
  rw [State.setOperands_mem, Memory.read_writeBytes]
  simp only [Vector.length_toList, Nat.zero_add, Nat.zero_le, true_and, Nat.sub_zero]
  split
  · next h => simp [listView, vecView, h.2]
  · rfl

/-! DECODE (R100 to R105). -/

/-- The result of DECODE when the length is wrong (R101). -/
theorem execDecode_of_length {s : State} (h : s.ilen ≠ 213#32) :
    exec .decode s = .next (s.raise (.lengthError s.ilen)) := by
  simp only [exec, execDecode, ne_eq, h, not_false_eq_true, ↓reduceIte]

/-- The result of DECODE when the length is right and the flag byte is not (R102). -/
theorem execDecode_of_flag {s : State} (h : s.ilen = 213#32) (hf : (parseFrame (s.mem.read .ibuf)).wellFormed = false) :
    exec .decode s = .next (s.raise (.flagError (s.mem.read .ibuf 212))) := by
  simp only [exec, execDecode, ne_eq, h, not_true_eq_false, ↓reduceIte, hf, Bool.false_eq_true]
  rfl

/-- The result of DECODE when both checks pass (R103, R104). -/
theorem execDecode_of_legal {s : State} (h : s.ilen = 213#32) (hf : (parseFrame (s.mem.read .ibuf)).wellFormed = true) :
    exec .decode s = .next ((s.setOperands (parseFrame (s.mem.read .ibuf)).toOperands).completeOk) := by
  simp only [exec, execDecode, ne_eq, h, not_true_eq_false, ↓reduceIte, hf]

/-- The check on the flag byte, said of the byte (R102). -/
theorem parseFrame_wellFormed_iff (f : Nat → Byte) :
    (parseFrame f).wellFormed = true ↔ f 212 = 0x00#8 ∨ f 212 = 0x01#8 := by
  simp [Frame.wellFormed, parseFrame]

/-- Everything DECODE can do: exactly three ways (R106). -/
theorem execDecode_cases (s : State) :
    (s.ilen ≠ 213#32 ∧ exec .decode s = .next (s.raise (.lengthError s.ilen)))
    ∨ (s.ilen = 213#32 ∧ s.mem.read .ibuf 212 ≠ 0x00#8 ∧ s.mem.read .ibuf 212 ≠ 0x01#8
        ∧ exec .decode s = .next (s.raise (.flagError (s.mem.read .ibuf 212))))
    ∨ (s.ilen = 213#32 ∧ (s.mem.read .ibuf 212 = 0x00#8 ∨ s.mem.read .ibuf 212 = 0x01#8)
        ∧ exec .decode s = .next ((s.setOperands (parseFrame (s.mem.read .ibuf)).toOperands).completeOk)) := by
  by_cases h : s.ilen = 213#32
  · by_cases hf : (parseFrame (s.mem.read .ibuf)).wellFormed = true
    · exact .inr (.inr ⟨h, (parseFrame_wellFormed_iff _).1 hf, execDecode_of_legal h hf⟩)
    · have hn := mt (parseFrame_wellFormed_iff _).2 hf
      rw [not_or] at hn
      exact .inr (.inl ⟨h, hn.1, hn.2, execDecode_of_flag h (by simpa using hf)⟩)
  · exact .inl ⟨h, execDecode_of_length h⟩

/-! COMPRESS (R120, R137). -/

/-- COMPRESS always completes, in one way (R121). -/
theorem execCompress_eq (s : State) : exec .compress s = .next s.compressed := rfl

@[simp] theorem State.compressed_mem (s : State) : s.compressed.mem = s.mem.writeBytes .obuf 0 (resultBytes (compressF s.operands)) := rfl
@[simp] theorem State.compressed_ilen (s : State) : s.compressed.ilen = s.ilen := by
  rw [State.compressed, State.completeOk_ilen]
@[simp] theorem State.compressed_rounds (s : State) : s.compressed.rounds = s.rounds := by
  rw [State.compressed, State.completeOk_rounds]
@[simp] theorem State.compressed_h (s : State) : s.compressed.h = s.h := by
  rw [State.compressed, State.completeOk_h]
@[simp] theorem State.compressed_t (s : State) : s.compressed.t = s.t := by
  rw [State.compressed, State.completeOk_t]
@[simp] theorem State.compressed_flag (s : State) : s.compressed.flag = s.flag := by
  rw [State.compressed, State.completeOk_flag]
@[simp] theorem State.compressed_status (s : State) : s.compressed.status = 0x00000002#32 := State.completeOk_status _
@[simp] theorem State.compressed_errInfo (s : State) : s.compressed.errInfo = 0#32 := rfl
@[simp] theorem State.compressed_op (s : State) : s.compressed.op = .none := rfl
@[simp] theorem State.compressed_v (s : State) : s.compressed.v = finalV s.operands := rfl
@[simp] theorem State.compressed_m (s : State) : s.compressed.m = messageWords s.operands.block := rfl
@[simp] theorem State.compressed_r (s : State) : s.compressed.r = s.rounds := rfl
@[simp] theorem State.compressed_pending (s : State) : s.compressed.pending = s.pending := by
  rw [State.compressed, State.completeOk_pending]
@[simp] theorem State.compressed_received (s : State) : s.compressed.received = s.received := by
  rw [State.compressed, State.completeOk_received]
@[simp] theorem State.compressed_turns (s : State) : s.compressed.turns = s.turns := by
  rw [State.compressed, State.completeOk_turns]

@[simp] theorem State.compressed_st (s : State) : s.compressed.st = stCode .ok := State.completeOk_st _

@[simp] theorem State.compressed_err (s : State) : s.compressed.err = 0#2 := State.completeOk_err _

@[simp] theorem State.compressed_busy (s : State) : s.compressed.busy = false := State.completeOk_busy _

/-- What COMPRESS leaves of the buffers: OBUF's 64 bytes are the result frame's, everything else is as before. -/
theorem State.read_compressed (s : State) (sp : Space) (a : Nat) :
    s.compressed.mem.read sp a =
      if sp = .obuf ∧ a < 64 then wordsView (compressF s.operands) a else s.mem.read sp a := by
  rw [State.compressed_mem, Memory.read_writeBytes]
  simp only [length_resultBytes, Nat.zero_add, Nat.zero_le, true_and, Nat.sub_zero]
  split
  · next h => exact listView_resultBytes _ _ h.2
  · rfl

/-- COMPRESS leaves its operands as they were (R137). -/
theorem State.compressed_operands (s : State) : s.compressed.operands = s.operands :=
  State.operands_congr (State.compressed_rounds s) (State.compressed_h s)
    (fun j _ => by rw [State.read_compressed, if_neg (fun h => nomatch h.1)]) (State.compressed_t s) (State.compressed_flag s)

/-! FRAME213 and RESULT64 (R88). -/

theorem execFrame213_of_idle (x : Frame) {s : State} (h : s.busy = false) :
    exec (.frame213 x) s = .next (s.loadSequence (frameBytes x)) := by
  simp only [exec, execFrame213, State.unlessBusy_idle h]

theorem execFrame213_of_busy (x : Frame) {s : State} (h : s.busy = true) : exec (.frame213 x) s = .next s := by
  simp only [exec, execFrame213, State.unlessBusy_held h]

theorem execResult64_eq (res : Vector Word 8) (s : State) :
    exec (.result64 res) s = .next (s.reply ((s.mem.readBytes .obuf 0 64).map Reply.byte)) := rfl

/-- What presenting a sequence leaves of the buffers: the bytes of IBUF that the sequence reaches. -/
theorem State.read_loadSequence (bs : List Byte) (s : State) (sp : Space) (a : Nat) :
    (s.loadSequence bs).mem.read sp a =
      if sp = .ibuf ∧ a < 213 ∧ a < bs.length then listView bs a else s.mem.read sp a := by
  rw [State.loadSequence_mem, Memory.read_writeBytes]
  simp only [List.length_take, Nat.zero_add, Nat.zero_le, true_and, Nat.sub_zero, Nat.lt_min]
  split
  · next h => simp [listView, h.2.1]
  · rfl

end Sys2Proof.Machine
end

