-- ==== Sys2Proof/Laws/Step.lean ====
section
/-! SUPPORT. What one step can do: the inversion laws of the decoder's result, the host's moves and the scheduler. -/

namespace Sys2Proof.Machine

/-! The decoder. -/

theorem decode_cmd8_ok {bytes : List Byte} {i : Instr} (h : decode .cmd8 bytes = .ok i) :
    (bytes = [0x01#8] ∧ i = .decode) ∨ (bytes = [0x02#8] ∧ i = .compress) := by
  match bytes with
  | [] => simp [decode] at h
  | [c] =>
    simp only [decode, decodeCommand, Config.cmdDecode, Config.cmdCompress] at h
    by_cases h1 : c = 0x01#8
    · subst h1; simp at h; exact .inl ⟨rfl, h.symm⟩
    · by_cases h2 : c = 0x02#8
      · subst h2; simp at h; exact .inr ⟨rfl, h.symm⟩
      · simp [h1, h2] at h
  | _ :: _ :: _ => simp [decode] at h

theorem decode_frame213_ok {bytes : List Byte} {i : Instr} (h : decode .frame213 bytes = .ok i) :
    bytes.length = 213 ∧ (parseFrame (listView bytes)).wellFormed = true ∧ i = .frame213 (parseFrame (listView bytes)) := by
  simp only [decode] at h
  split at h
  · cases h
  · next hl =>
    split at h
    · next hw => cases h; exact ⟨by simpa using hl, hw, rfl⟩
    · cases h

theorem decode_result64_ok {bytes : List Byte} {i : Instr} (h : decode .result64 bytes = .ok i) :
    bytes.length = 64 ∧ i = .result64 (parseResult (listView bytes)) := by
  simp only [decode] at h
  split at h
  · cases h
  · next hl => cases h; exact ⟨by simpa using hl, rfl⟩

/-! Presenting a sequence is loading it, whether the decoder reads it as a legal frame or not. -/

theorem hostPresent_eq (bs : List Byte) (s : State) (h : bs.length < 2 ^ 32) :
    hostPresent bs s = .next (s.unlessBusy (State.loadSequence bs)) := by
  simp only [hostPresent, if_neg (Nat.not_le.2 h)]
  cases hd : decode .frame213 bs with
  | error e => rfl
  | ok i =>
    obtain ⟨hl, -, rfl⟩ := decode_frame213_ok hd
    simp only [exec, execFrame213, frameBytes_parseFrame bs hl]

theorem hostReadout_eq (bits : List Byte) (s : State) (h : bits.length = 64) :
    hostReadout bits s = .next (s.reply ((s.mem.readBytes .obuf 0 64).map Reply.byte)) := by
  simp only [hostReadout, decode, ne_eq, h, not_true_eq_false, ↓reduceIte]
  rfl

/-- The engine's step from a state with an operation in progress: it completes, and the host stands where it stood (R167). -/
theorem engineStep_next {s : State} (h : s.op ≠ .none) :
    ∃ t, engineStep s = .next t ∧ t.busy = false ∧ t.op = .none ∧ s.SameHost t := by
  cases ho : s.op with
  | none => exact absurd ho h
  | decode =>
    simp only [engineStep, ho, instrOfOperation]
    obtain ⟨-, e⟩ | ⟨-, -, -, e⟩ | ⟨-, -, e⟩ := execDecode_cases s
    · exact ⟨_, e, by simp, by simp, by simp, by simp, by simp⟩
    · exact ⟨_, e, by simp, by simp, by simp, by simp, by simp⟩
    · exact ⟨_, e, by simp, by simp, by simp, by simp, by simp⟩
  | compress =>
    simp only [engineStep, ho, instrOfOperation]
    exact ⟨_, execCompress_eq s, by simp, by simp, by simp, by simp, by simp⟩

/-- Everything the engine's step can do (R167): one of the three ways of DECODE (R106), or COMPRESS. -/
theorem engineStep_cases {s t : State} (h : engineStep s = .next t) :
    (s.op = .decode ∧ s.ilen ≠ 213#32 ∧ t = s.raise (.lengthError s.ilen))
    ∨ (s.op = .decode ∧ s.ilen = 213#32 ∧ s.mem.read .ibuf 212 ≠ 0x00#8 ∧ s.mem.read .ibuf 212 ≠ 0x01#8
        ∧ t = s.raise (.flagError (s.mem.read .ibuf 212)))
    ∨ (s.op = .decode ∧ s.ilen = 213#32 ∧ (s.mem.read .ibuf 212 = 0x00#8 ∨ s.mem.read .ibuf 212 = 0x01#8)
        ∧ t = (s.setOperands (parseFrame (s.mem.read .ibuf)).toOperands).completeOk)
    ∨ (s.op = .compress ∧ t = s.compressed) := by
  cases ho : s.op with
  | none => simp only [engineStep, ho, instrOfOperation] at h; cases h
  | compress =>
    simp only [engineStep, ho, instrOfOperation, execCompress_eq] at h
    exact .inr (.inr (.inr ⟨rfl, (Host.Outcome.next.inj h).symm⟩))
  | decode =>
    simp only [engineStep, ho, instrOfOperation] at h
    obtain ⟨hl, e⟩ | ⟨hl, h0, h1, e⟩ | ⟨hl, hf, e⟩ := execDecode_cases s <;> rw [e] at h <;>
      obtain rfl := Host.Outcome.next.inj h
    · exact .inl ⟨rfl, hl, rfl⟩
    · exact .inr (.inl ⟨rfl, hl, h0, h1, rfl⟩)
    · exact .inr (.inr (.inl ⟨rfl, hl, hf, rfl⟩))

/-- A well-formed host move always has its step. -/
theorem hostMove_next (mv : HostMove) (s : State) (h : mv.wellFormed = true) : ∃ t, hostMove mv s = .next t := by
  cases mv with
  | present bs => exact ⟨_, hostPresent_eq bs s (by simpa [HostMove.wellFormed] using h)⟩
  | readout bits => exact ⟨_, hostReadout_eq bits s (by simpa [HostMove.wellFormed] using h)⟩
  | _ => exact ⟨_, rfl⟩

/-! The busy hold (R166). -/

/-- A held move changes nothing while ST = BUSY, if it is a move at all. -/
theorem hostMove_held {mv : HostMove} {s t : State} (hm : heldMove mv = true) (hb : s.busy = true)
    (h : hostMove mv s = .next t) : t = s := by
  cases mv <;> simp only [heldMove, Bool.false_eq_true] at hm <;> simp only [hostMove] at h
  case present bs =>
    by_cases hl : bs.length < 2 ^ 32
    · rw [hostPresent_eq bs s hl, State.unlessBusy_held hb] at h
      cases h; rfl
    · simp only [hostPresent, if_pos (Nat.not_lt.1 hl)] at h
      cases h
  all_goals
    cases h
    exact State.unlessBusy_held hb

/-! Every host move. -/

/-- Everything a host move can do: a RESET; the issue of a command; a write of input and operand registers, which keeps OBUF, STATUS and
the rest; or nothing but a
reply, after which WAIT may stand before the moves that follow it. -/
theorem hostMove_cases {mv : HostMove} {s t : State} (h : hostMove mv s = .next t) :
    (mv = .reset ∧ t = s.resetRegisters)
    ∨ (∃ c i, mv = .issue c ∧ s.busy = false ∧ decodeCommand c = some i ∧ t = s.startOperation (operationOf i))
    ∨ (s.busy = false ∧ heldMove mv = true
        ∧ t = { s with mem := t.mem, ilen := t.ilen, rounds := t.rounds, h := t.h, t := t.t, flag := t.flag }
        ∧ (∀ j, t.mem.read .obuf j = s.mem.read .obuf j) ∧ (s.mem.wf = true → t.mem.wf = true))
    ∨ (t = { s with pending := t.pending, received := t.received }
        ∧ (t.pending = s.pending ∨ (mv = .wait ∧ t.pending = .wait :: s.pending))) := by
  by_cases hm : heldMove mv = true
  · cases hb : s.busy with
    | true =>
      obtain rfl := hostMove_held hm hb h
      exact .inr (.inr (.inr ⟨rfl, .inl rfl⟩))
    | false =>
      cases mv with
      | wrIbuf i b =>
        simp only [hostMove, hostWrIbuf, State.unlessBusy_idle hb] at h
        obtain rfl := Host.Outcome.next.inj h
        exact .inr (.inr (.inl ⟨rfl, rfl, rfl, fun j => by simp [Memory.read_write], fun w => Memory.wf_write .ibuf b w i.isLt⟩))
      | wrBlk i b =>
        simp only [hostMove, hostWrBlk, State.unlessBusy_idle hb] at h
        obtain rfl := Host.Outcome.next.inj h
        exact .inr (.inr (.inl ⟨rfl, rfl, rfl, fun j => by simp [Memory.read_write], fun w => Memory.wf_write .blk b w i.isLt⟩))
      | wrIlen n =>
        simp only [hostMove, hostWrIlen, State.unlessBusy_idle hb] at h
        obtain rfl := Host.Outcome.next.inj h
        exact .inr (.inr (.inl ⟨rfl, rfl, rfl, fun _ => rfl, id⟩))
      | wrRounds n =>
        simp only [hostMove, hostWrRounds, State.unlessBusy_idle hb] at h
        obtain rfl := Host.Outcome.next.inj h
        exact .inr (.inr (.inl ⟨rfl, rfl, rfl, fun _ => rfl, id⟩))
      | wrH i w =>
        simp only [hostMove, hostWrH, State.unlessBusy_idle hb] at h
        obtain rfl := Host.Outcome.next.inj h
        exact .inr (.inr (.inl ⟨rfl, rfl, rfl, fun _ => rfl, id⟩))
      | wrT i w =>
        simp only [hostMove, hostWrT, State.unlessBusy_idle hb] at h
        obtain rfl := Host.Outcome.next.inj h
        exact .inr (.inr (.inl ⟨rfl, rfl, rfl, fun _ => rfl, id⟩))
      | wrFlag b =>
        simp only [hostMove, hostWrFlag, State.unlessBusy_idle hb] at h
        obtain rfl := Host.Outcome.next.inj h
        exact .inr (.inr (.inl ⟨rfl, rfl, rfl, fun _ => rfl, id⟩))
      | present bs =>
        by_cases hl : bs.length < 2 ^ 32
        · simp only [hostMove, hostPresent_eq bs s hl, State.unlessBusy_idle hb] at h
          obtain rfl := Host.Outcome.next.inj h
          refine .inr (.inr (.inl ⟨rfl, rfl, rfl, fun j => ?_, fun w => ?_⟩))
          · rw [State.loadSequence_mem, Memory.read_writeBytes, if_neg (fun e => nomatch e.1)]
          · exact Memory.wf_writeBytes .ibuf w (by simp [Space.size])
        · simp only [hostMove, hostPresent, if_pos (Nat.not_lt.1 hl)] at h; cases h
      | issue c =>
        simp only [hostMove, hostIssue, State.unlessBusy_idle hb] at h
        obtain rfl := Host.Outcome.next.inj h
        cases hd : decodeCommand c with
        | none => exact .inr (.inr (.inr ⟨rfl, .inl rfl⟩))
        | some i => exact .inr (.inl ⟨c, i, rfl, rfl, hd, rfl⟩)
      | rd _ | reset | wait | readout _ => simp [heldMove] at hm
  · cases mv with
    | reset => exact .inl ⟨rfl, (Host.Outcome.next.inj h).symm⟩
    | rd p =>
      obtain rfl := Host.Outcome.next.inj h
      exact .inr (.inr (.inr ⟨rfl, .inl rfl⟩))
    | wait =>
      obtain rfl := Host.Outcome.next.inj h
      simp only [hostWait, hostRd]
      cases s.busy
      · exact .inr (.inr (.inr ⟨rfl, .inl rfl⟩))
      · exact .inr (.inr (.inr ⟨rfl, .inr ⟨trivial, rfl⟩⟩))
    | readout bits =>
      by_cases hl : bits.length = 64
      · simp only [hostMove, hostReadout_eq bits s hl] at h
        obtain rfl := Host.Outcome.next.inj h
        exact .inr (.inr (.inr ⟨rfl, .inl rfl⟩))
      · simp [hostMove, hostReadout, decode, hl] at h
    | _ => simp [heldMove] at hm

/-! The scheduler (R61). -/

theorem step_idle {s : State} (hb : s.busy = false) (hp : s.pending = []) : step s = .next s := by
  simp [step, agentStep, State.hostEnabled, hb, hp]

theorem step_host {s : State} {mv : HostMove} {rest : List HostMove} (hb : s.busy = false) (hp : s.pending = mv :: rest) :
    step s = hostMove mv { s with pending := rest } := by
  simp [step, agentStep, State.hostEnabled, hostStep, hb, hp]

theorem step_engine {s : State} (hb : s.busy = true) (hh : s.hostEnabled = false) : step s = engineStep s := by
  simp [step, agentStep, hb, hh]

theorem step_engine_last {s : State} (hb : s.busy = true) (ht : s.turns = []) : step s = engineStep s := by
  simp only [step, agentStep, hb]
  cases s.hostEnabled <;> simp [ht]

theorem step_engine_turn {s : State} {ts : List Agent} (hb : s.busy = true) (hh : s.hostEnabled = true)
    (ht : s.turns = .engine :: ts) : step s = engineStep { s with turns := ts } := by
  simp [step, agentStep, hb, hh, ht]

theorem step_host_turn {s : State} {mv : HostMove} {rest : List HostMove} {ts : List Agent} (hb : s.busy = true)
    (hp : s.pending = mv :: rest) (hm : heldMove mv = false) (ht : s.turns = .host :: ts) :
    step s = hostMove mv { s with pending := rest, turns := ts } := by
  simp [step, agentStep, State.hostEnabled, hostStep, hb, hp, hm, ht]

theorem hostEnabled_iff (s : State) (hb : s.busy = true) :
    s.hostEnabled = true ↔ ∃ mv rest, s.pending = mv :: rest ∧ heldMove mv = false := by
  cases hp : s.pending with
  | nil => simp [State.hostEnabled, hp]
  | cons mv rest => simp [State.hostEnabled, hp, hb]

/-- Everything a step can be: inactivity, the engine's completion (with or without a turn used up), or a host move that is not held
(likewise). -/
theorem step_cases (s : State) :
    (s.busy = false ∧ s.pending = [] ∧ step s = .next s)
    ∨ (s.busy = true ∧ ∃ ts, step s = engineStep { s with turns := ts })
    ∨ (∃ mv rest ts, s.pending = mv :: rest ∧ (s.busy = true → heldMove mv = false)
        ∧ step s = hostMove mv { s with pending := rest, turns := ts }) := by
  cases hb : s.busy with
  | false =>
    cases hp : s.pending with
    | nil => exact .inl ⟨rfl, rfl, step_idle hb hp⟩
    | cons mv rest => exact .inr (.inr ⟨mv, rest, s.turns, rfl, by simp, step_host hb hp⟩)
  | true =>
    cases hh : s.hostEnabled with
    | false => exact .inr (.inl ⟨rfl, s.turns, step_engine hb hh⟩)
    | true =>
      match ht : s.turns with
      | [] => exact .inr (.inl ⟨rfl, [], by rw [step_engine_last hb ht]; simp [← ht]⟩)
      | .engine :: ts => exact .inr (.inl ⟨rfl, ts, step_engine_turn hb hh ht⟩)
      | .host :: ts =>
        obtain ⟨mv, rest, hp, hm⟩ := (hostEnabled_iff s hb).1 hh
        exact .inr (.inr ⟨mv, rest, ts, hp, fun _ => hm, step_host_turn hb hp hm ht⟩)

end Sys2Proof.Machine
end

