-- ==== Sys2Proof/Laws/HostProgram.lean ====
section
/-! SUPPORT. What runs of host moves do while nothing is in progress (spec/30_encoding.md R88). -/

namespace Sys2Proof.Machine

/-- A run of moves followed by another. -/
theorem hostMoves_append (l l' : List HostMove) (s : State) :
    hostMoves s (l ++ l') =
      match hostMoves s l with
      | .next t => hostMoves t l'
      | .fault f => .fault f
      | .refused r => .refused r := by
  induction l generalizing s with
  | nil => rfl
  | cons mv l ih =>
    simp only [List.cons_append, hostMoves]
    cases hostMove mv s with
    | next t => exact ih t
    | fault f => rfl
    | refused r => rfl

/-- A run of WR_IBUF moves from index `a` on writes the bytes that fit in IBUF. -/
theorem hostMoves_wrIbuf (bs : List Byte) (a : Nat) (s : State) (h : s.busy = false) :
    hostMoves s (wrIbufMoves a bs) = .next { s with mem := s.mem.writeBytes .ibuf a (bs.take (213 - a)) } := by
  induction bs generalizing a s with
  | nil => simp [wrIbufMoves, hostMoves, Memory.writeBytes]
  | cons b bs ih =>
    by_cases ha : a < 213
    · simp only [wrIbufMoves, ha, ↓reduceDIte, hostMoves, hostMove, hostWrIbuf, State.unlessBusy_idle h]
      rw [ih _ _ (by exact h), show 213 - a = (213 - (a + 1)) + 1 by omega]
      simp [Memory.writeBytes]
    · simp [wrIbufMoves, ha, hostMoves, show 213 - a = 0 by omega, Memory.writeBytes]

/-- A run of WR_H moves. -/
theorem hostMoves_wrH (l : List (Fin 8)) (g : Fin 8 → Word) (s : State) (h : s.busy = false) :
    hostMoves s (l.map fun i => .wrH i (g i)) =
      .next { s with h := l.foldl (fun v i => v.set i.val (g i)) s.h } := by
  induction l generalizing s with
  | nil => rfl
  | cons j l ih =>
    simp only [List.map_cons, hostMoves, hostMove, hostWrH, State.unlessBusy_idle h]
    rw [ih _ (by exact h)]
    rfl

/-- Writing all eight words of H leaves the words written. -/
theorem foldl_set_all (v w : Vector Word 8) (g : Fin 8 → Word) (hg : ∀ i : Fin 8, g i = w[i]) :
    (List.finRange 8).foldl (fun v i => v.set i.val (g i)) v = w := by
  obtain rfl : g = fun i => w[i] := funext hg
  ext1 i hi
  rw [show List.finRange 8 = [0, 1, 2, 3, 4, 5, 6, 7] from rfl]
  simp only [List.foldl, Vector.getElem_set]
  rcases (show i = 0 ∨ i = 1 ∨ i = 2 ∨ i = 3 ∨ i = 4 ∨ i = 5 ∨ i = 6 ∨ i = 7 by omega) with
    rfl | rfl | rfl | rfl | rfl | rfl | rfl | rfl <;> simp

/-- A run of WR_BLK moves. -/
theorem hostMoves_wrBlk (l : List (Fin 128)) (g : Fin 128 → Byte) (s : State) (h : s.busy = false) :
    hostMoves s (l.map fun j => .wrBlk j (g j)) =
      .next { s with mem := l.foldl (fun m j => m.write .blk j.val (g j)) s.mem } := by
  induction l generalizing s with
  | nil => rfl
  | cons j l ih =>
    simp only [List.map_cons, hostMoves, hostMove, hostWrBlk, State.unlessBusy_idle h]
    rw [ih _ (by exact h)]
    rfl

/-- One byte of BLK after a run of writes to it. -/
theorem read_foldl_write (l : List (Fin 128)) (g : Fin 128 → Byte) (m : Memory) (j : Fin 128) :
    (l.foldl (fun m j => m.write .blk j.val (g j)) m).read .blk j.val = if j ∈ l then g j else m.read .blk j.val := by
  induction l generalizing m with
  | nil => simp
  | cons i l ih =>
    rw [List.foldl_cons, ih, Memory.read_write]
    by_cases h : j ∈ l
    · simp [h]
    · by_cases h' : j = i
      · subst h'; simp
      · simp [h, h', Fin.val_ne_of_ne h']

/-- A run of RD_OBUF moves. -/
theorem hostMoves_rdObuf (l : List (Fin 64)) (s : State) :
    hostMoves s (l.map fun j => .rd (.obuf j)) = .next (s.reply (l.map fun j => .byte (s.mem.read .obuf j.val))) := by
  induction l generalizing s with
  | nil => simp [hostMoves, State.reply]
  | cons j l ih =>
    simp only [List.map_cons, hostMoves, hostMove, hostRd]
    rw [ih]
    simp [State.reply, State.readPort]

/-- One word of `chain`: eight bytes of OBUF handed back, then that word of H written. -/
theorem hostMoves_chainWord (i : Fin 8) (w : Word) (s : State) (h : s.busy = false) :
    hostMoves s (chainWordMoves i w) =
      .next { s with
        h := s.h.set i.val w
        received := s.received ++ (s.mem.readBytes .obuf (8 * i.val) 8).map Reply.byte } := by
  have hr : (List.finRange 8).map (fun k : Fin 8 => HostMove.rd (.obuf ⟨8 * i.val + k.val, by omega⟩))
      = ((List.finRange 8).map fun k : Fin 8 => (⟨8 * i.val + k.val, by omega⟩ : Fin 64)).map fun j => .rd (.obuf j) := by
    rw [List.map_map]
    rfl
  rw [chainWordMoves, hr, hostMoves_append, hostMoves_rdObuf]
  simp only [hostMoves, hostMove, hostWrH]
  rw [State.unlessBusy_idle (by exact h)]
  rfl

/-- A run of the words of `chain`. -/
theorem hostMoves_chain (l : List (Fin 8)) (g : Fin 8 → Word) (s : State) (h : s.busy = false) :
    hostMoves s (l.flatMap fun i => chainWordMoves i (g i)) =
      .next { s with
        h := l.foldl (fun v i => v.set i.val (g i)) s.h
        received := s.received ++ (l.flatMap fun i => s.mem.readBytes .obuf (8 * i.val) 8).map Reply.byte } := by
  induction l generalizing s with
  | nil => simp [hostMoves]
  | cons j l ih =>
    rw [List.flatMap_cons, hostMoves_append, hostMoves_chainWord j (g j) s h]
    simp only
    rw [ih _ (by exact h)]
    simp

end Sys2Proof.Machine
end

