-- ==== Sys2Proof/Laws/Word.lean ====
section
/-! SUPPORT. The word operations the model uses are those the spec defines by arithmetic (spec/00_scope.md R11, R12). -/

namespace Sys2Proof

/-- `a +64 b` = (a + b) mod 2^64 (R11). -/
theorem add_toNat (a b : Word) : (a + b).toNat = (a.toNat + b.toNat) % 2 ^ 64 := BitVec.toNat_add a b

/-- A three-term sum is taken mod 2^64 once, which equals adding twice with wrap each time (R11). -/
theorem add_add_toNat (a b c : Word) : (a + b + c).toNat = (a.toNat + b.toNat + c.toNat) % 2 ^ 64 := by
  simp [BitVec.toNat_add]

/-- `w XOR ALL_ONES` is the complement of `w` (R11, R134). -/
theorem xor_allOnes (w : Word) : w ^^^ ALL_ONES = ~~~w := by
  rw [show ALL_ONES = BitVec.allOnes 64 from rfl, BitVec.xor_allOnes]

/-- Bit `k` of `rotr64(w, n)` is bit `(k + n) mod 64` of `w` (R12). -/
theorem rotr_bit (w : Word) (n k : Nat) (hn : n < 64) (hk : k < 64) :
    (w.rotateRight n).getLsbD k = w.getLsbD ((k + n) % 64) := by
  rw [BitVec.getLsbD_rotateRight, Nat.mod_eq_of_lt hn]
  by_cases h : k < 64 - n
  · rw [decide_eq_true h, cond_true]
    rw [show (k + n) % 64 = n + k by omega]
  · rw [decide_eq_false h, cond_false, show (k + n) % 64 = k - (64 - n) by omega, decide_eq_true hk, Bool.true_and]

/-- `rotr64(w, n)` by the formula of R12. -/
theorem rotr_toNat (w : Word) (n : Nat) (h0 : 0 < n) (hn : n < 64) :
    (w.rotateRight n).toNat = (w.toNat / 2 ^ n + w.toNat % 2 ^ n * 2 ^ (64 - n)) % 2 ^ 64 := by
  have hw : w.toNat < 2 ^ 64 := w.isLt
  have hp : (2 : Nat) ^ 64 = 2 ^ n * 2 ^ (64 - n) := by rw [← Nat.pow_add]; congr 1; omega
  have hlt : w.toNat / 2 ^ n < 2 ^ (64 - n) := Nat.div_lt_of_lt_mul (hp ▸ hw)
  have hmod : w.toNat * 2 ^ (64 - n) % 2 ^ 64 = w.toNat % 2 ^ n * 2 ^ (64 - n) := by
    rw [hp, Nat.mul_mod_mul_right]
  have hsum : w.toNat / 2 ^ n + w.toNat % 2 ^ n * 2 ^ (64 - n) < 2 ^ 64 := by
    have h1 : w.toNat % 2 ^ n + 1 ≤ 2 ^ n := Nat.mod_lt _ (Nat.two_pow_pos n)
    have h2 : (w.toNat % 2 ^ n + 1) * 2 ^ (64 - n) ≤ 2 ^ n * 2 ^ (64 - n) := Nat.mul_le_mul_right _ h1
    rw [Nat.add_mul, Nat.one_mul, ← hp] at h2
    omega
  rw [BitVec.toNat_rotateRight, Nat.mod_eq_of_lt hn, Nat.shiftRight_eq_div_pow, Nat.shiftLeft_eq, hmod, Nat.mod_eq_of_lt hsum,
    Nat.or_comm, ← Nat.shiftLeft_eq, ← Nat.shiftLeft_add_eq_or_of_lt hlt, Nat.shiftLeft_eq, Nat.add_comm]

/-- `rotr64(w, 63)` is a left rotation by 1 (R12). -/
theorem rotr_63 (w : Word) : w.rotateRight 63 = w.rotateLeft 1 := by
  apply BitVec.eq_of_getLsbD_eq
  intro i hi
  rw [rotr_bit w 63 i (by omega) hi, BitVec.getLsbD_rotateLeft]
  by_cases h : i = 0
  · subst h; rfl
  · rw [show (i + 63) % 64 = i - 1 by omega]
    simp [hi, show ¬ i < 1 by omega]

end Sys2Proof
end

