-- ==== Sys2Proof/Laws/Mixing.lean ====
section
/-! SUPPORT. What the mixing primitive and the parts of F give, word by word (spec/41_compress.md R124 to R130). -/

namespace Sys2Proof.Machine

/-- Two working vectors are equal when their sixteen words are. -/
theorem workVec_ext {v w : WorkVec} (h : ∀ k : Fin 16, v[k] = w[k]) : v = w := by
  ext1 i hi
  exact h ⟨i, hi⟩

theorem getElem_set_fin (v : WorkVec) (a k : Fin 16) (x : Word) : (v.set a x)[k] = if k = a then x else v[k] := by
  rw [Fin.getElem_fin, Vector.getElem_set]
  by_cases h : k = a
  · simp [h]
  · rw [if_neg (fun e => h (Fin.ext e.symm)), if_neg h]
    rfl

/-- Every word that G leaves, for four distinct indices (R127). -/
theorem mixG_get (a b c d : Fin 16) (x y : Word) (v : WorkVec) (hab : a ≠ b) (hac : a ≠ c) (had : a ≠ d) (hbc : b ≠ c)
    (hbd : b ≠ d) (hcd : c ≠ d) (k : Fin 16) :
    (mixG a b c d x y v)[k] =
      (let a1 := v[a] + v[b] + x
       let d1 := (v[d] ^^^ a1).rotateRight 32
       let c1 := v[c] + d1
       let b1 := (v[b] ^^^ c1).rotateRight 24
       let a2 := a1 + b1 + y
       let d2 := (d1 ^^^ a2).rotateRight 16
       let c2 := c1 + d2
       let b2 := (b1 ^^^ c2).rotateRight 63
       if k = a then a2 else if k = b then b2 else if k = c then c2 else if k = d then d2 else v[k]) := by
  simp only [mixG, getElem_set_fin, hab, hac, had, hbc, hbd, hcd, hab.symm, hac.symm, had.symm, hbc.symm, hbd.symm, hcd.symm,
    ↓reduceIte]
  by_cases h1 : k = a
  · subst h1; simp [hab, hac, had]
  · by_cases h2 : k = b
    · subst h2; simp [hab.symm]
    · by_cases h3 : k = c
      · subst h3; simp [hac.symm, hbc.symm]
      · by_cases h4 : k = d
        · subst h4; simp [had.symm, hbd.symm, hcd.symm]
        · simp [h1, h2, h3, h4]

/-- A rotation by less than the width loses nothing. -/
theorem rotateRight_injective (n : Nat) (hn : n < 64) {w w' : Word} (h : w.rotateRight n = w'.rotateRight n) : w = w' := by
  apply BitVec.eq_of_getLsbD_eq
  intro i hi
  have hk : (i + (64 - n)) % 64 < 64 := Nat.mod_lt _ (by decide)
  have e := congrArg (fun x : Word => x.getLsbD ((i + (64 - n)) % 64)) h
  simp only [rotr_bit _ _ _ hn hk] at e
  rwa [show ((i + (64 - n)) % 64 + n) % 64 = i by omega] at e

/-- Two applications of G on disjoint indices commute (R139). -/
theorem mixG_comm (a b c d a' b' c' d' : Fin 16) (x y x' y' : Word) (v : WorkVec)
    (h : [a, b, c, d, a', b', c', d'].Nodup) :
    mixG a b c d x y (mixG a' b' c' d' x' y' v) = mixG a' b' c' d' x' y' (mixG a b c d x y v) := by
  simp only [List.nodup_cons, List.mem_cons, not_or, List.not_mem_nil] at h
  obtain ⟨⟨ab, ac, ad, aa', ab', ac', ad', -⟩, ⟨bc, bd, ba', bb', bc', bd', -⟩, ⟨cd, ca', cb', cc', cd', -⟩,
    ⟨da', db', dc', dd', -⟩, ⟨a'b', a'c', a'd', -⟩, ⟨b'c', b'd', -⟩, ⟨c'd', -⟩, -⟩ := h
  apply workVec_ext
  intro k
  simp only [mixG_get a b c d _ _ _ ab ac ad bc bd cd, mixG_get a' b' c' d' _ _ _ a'b' a'c' a'd' b'c' b'd' c'd', aa', ab', ac',
    ad', ba', bb', bc', bd', ca', cb', cc', cd', da', db', dc', dd', Ne.symm aa', Ne.symm ab', Ne.symm ac', Ne.symm ad',
    Ne.symm ba', Ne.symm bb', Ne.symm bc', Ne.symm bd', Ne.symm ca', Ne.symm cb', Ne.symm cc', Ne.symm cd', Ne.symm da',
    Ne.symm db', Ne.symm dc', Ne.symm dd', ↓reduceIte]
  by_cases e1 : k = a
  · subst e1; simp [*]
  by_cases e2 : k = b
  · subst e2; simp [*]
  by_cases e3 : k = c
  · subst e3; simp [*]
  by_cases e4 : k = d
  · subst e4; simp [*]
  simp only [e1, e2, e3, e4, ↓reduceIte]

/-- Each of the eight lines of G can be undone, so G loses nothing (R135). -/
theorem mixG_injective (a b c d : Fin 16) (x y : Word) (hab : a ≠ b) (hac : a ≠ c) (had : a ≠ d) (hbc : b ≠ c)
    (hbd : b ≠ d) (hcd : c ≠ d) : Function.Injective (mixG a b c d x y) := by
  intro v w h
  have g := mixG_get a b c d x y v hab hac had hbc hbd hcd
  rw [h] at g
  have e := fun k => (g k).symm.trans (mixG_get a b c d x y w hab hac had hbc hbd hcd k)
  have ea := e a
  have eb := e b
  have ec := e c
  have ed := e d
  simp only [hab.symm, hac.symm, had.symm, hbc.symm, hbd.symm, hcd.symm, ↓reduceIte] at ea eb ec ed
  -- line 8, then 7, 6, 5, 4, 3, 2, 1
  have e8 := rotateRight_injective 63 (by decide) eb
  rw [ec, BitVec.xor_left_inj] at e8
  have e7 := ec
  rw [ed, BitVec.add_left_inj] at e7
  have e6 := rotateRight_injective 16 (by decide) ed
  rw [ea, BitVec.xor_left_inj] at e6
  have e5 := ea
  rw [e8, BitVec.add_left_inj, BitVec.add_left_inj] at e5
  have e4 := rotateRight_injective 24 (by decide) e8
  rw [e7, BitVec.xor_left_inj] at e4
  have e3 := e7
  rw [e6, BitVec.add_left_inj] at e3
  have e2 := rotateRight_injective 32 (by decide) e6
  rw [e5, BitVec.xor_left_inj] at e2
  have e1 := e5
  rw [e4, BitVec.add_left_inj, BitVec.add_left_inj] at e1
  apply workVec_ext
  intro k
  by_cases h1 : k = a
  · rw [h1, e1]
  by_cases h2 : k = b
  · rw [h2, e4]
  by_cases h3 : k = c
  · rw [h3, e3]
  by_cases h4 : k = d
  · rw [h4, e2]
  simpa only [h1, h2, h3, h4, ↓reduceIte] using e k

/-- Message word `i` is the little-endian word of bytes 8i .. 8i + 7 of the block (R124). -/
theorem messageWords_get (block : Vector Byte 128) (i : Nat) (hi : i < 16) :
    (messageWords block)[i] = le64 (vecView block) (8 * i) := by
  simp [messageWords]

/-- Result word `i` is `H[i] XOR V[i] XOR V[i+8]` (R128). -/
theorem finalXor_get (h : Vector Word 8) (v : WorkVec) (i : Nat) (hi : i < 8) :
    (finalXor h v)[i] = h[i] ^^^ v[i] ^^^ v[i + 8] := by
  simp [finalXor]

@[simp] theorem mixRounds_zero (m : Vector Word 16) (v : WorkVec) : mixRounds m v 0 = v := rfl

theorem mixRounds_succ (m : Vector Word 16) (v : WorkVec) (n : Nat) :
    mixRounds m v (n + 1) = mixRound m n (mixRounds m v n) := rfl

/-- The schedule repeats every ten rounds (R130). -/
theorem schedule_add (r k : Nat) : schedule (r + 10 * k) = schedule r := by
  simp [schedule]

end Sys2Proof.Machine
end

