-- ==== Sys2Proof/Laws/PerInstr.lean ====
section
/-! SUPPORT. Laws said per instruction, one lemma per constructor of Instr. -/

namespace Sys2Proof.Laws

/-- The length in bytes of an instruction of each format (spec/30_encoding.md R70, R86). -/
def EncodeLength.bytes : Format → Nat
  | .cmd8 => 1
  | .frame213 => Config.frameLen
  | .result64 => Config.outBytes

/-- The encoding of an instruction has the fixed length of its format (R86: no length depends on content). -/
def EncodeLength.Statement (i : Instr) : Prop := (encode i).length = EncodeLength.bytes i.format

theorem EncodeLength.decode : EncodeLength.Statement .decode := rfl

theorem EncodeLength.compress : EncodeLength.Statement .compress := rfl

theorem EncodeLength.frame213 (x : Frame) : EncodeLength.Statement (.frame213 x) := Machine.length_frameBytes x

theorem EncodeLength.result64 (res : Vector Word 8) : EncodeLength.Statement (.result64 res) := Machine.length_resultBytes res

end Sys2Proof.Laws
end

