-- ==== Sys2Proof/Tests/Slice0.lean ====
section
/-! SUPPORT. The model's own tests. Expected values are the spec's: spec/95_test_vectors.md by the vector's name, or the rule's example.
Below them, for every statement of Obligations.lean that has hypotheses, a witness: a concrete state and operands that meet them all. -/

namespace Sys2Proof.Tests

open Sys2Proof.Machine

/-! Helpers. -/

/-- `n` bytes written as one hexadecimal numeral, first byte first, as the vectors are printed. -/
def hex (n w : Nat) : List Byte := bytesOf (fun i => BitVec.ofNat 8 (w >>> (8 * (n - 1 - i)))) n

/-- The state an outcome gives, to look at its fields; the reset state for a fault or a refusal, which `isNext` tells apart. -/
def after : Host.Outcome State Fault Refusal → State
  | .next s => s
  | .fault _ => State.reset
  | .refused _ => State.reset

def isNext : Host.Outcome State Fault Refusal → Bool
  | .next _ => true
  | .fault _ => false
  | .refused _ => false

/-- Whether the decoder rejects a sequence for the reason named. -/
def rejects (fmt : Format) (bs : List Byte) (r : Reject) : Bool :=
  match decode fmt bs with
  | .ok _ => false
  | .error e => e == r

theorem exists_of_toBool {x : Except Reject Instr} (h : x.toBool = true) : ∃ i, x = .ok i := by
  cases x with
  | ok i => exact ⟨i, rfl⟩
  | error e => cases h

/-- A state right after reset but for a presented byte sequence. -/
def presented (bs : List Byte) : State := State.reset.loadSequence bs

/-- A state right after reset but for the operand registers. -/
def withOperands (x : Operands) : State := State.reset.setOperands x

/-- A state right after reset but for STATUS, ERR_INFO and OP. -/
def withStatus (status errInfo : U32) (op : Operation) : State :=
  { State.reset with status := status, errInfo := errInfo, op := op }

/-- Right after reset, with the host about to make `mvs`. -/
def withHost (mvs : List HostMove) : State := { State.reset with pending := mvs }

/-- A COMPRESS in progress, with the host about to make `mvs` and `ts` deciding the turns. -/
def busyHost (mvs : List HostMove) (ts : List Agent) : State :=
  { State.reset with status := 1#32, op := .compress, pending := mvs, turns := ts }

/-- A DECODE in progress, with the host about to make `mvs` and no turn written down. -/
def busyDecode (mvs : List HostMove) : State := { State.reset with status := 1#32, op := .decode, pending := mvs }

/-- The input frame of vector D-D-01. -/
def frameDD01 : List Byte :=
  hex 48 0x010203040102030405060708020203040506070803020304050607080402030405060708050203040506070806020304
    ++ hex 48 0x0506070807020304050607080802030405060708000102030405060708090a0b0c0d0e0f101112131415161718191a1b
    ++ hex 48 0x1c1d1e1f202122232425262728292a2b2c2d2e2f303132333435363738393a3b3c3d3e3f404142434445464748494a4b
    ++ hex 48 0x4c4d4e4f505152535455565758595a5b5c5d5e5f606162636465666768696a6b6c6d6e6f707172737475767778797a7b
    ++ hex 21 0x7c7d7e7f1817161514131211282726252423222101

/-- The input frame of vector V1. -/
def frameV1 : List Byte :=
  hex 48 0x0000000048c9bdf267e6096a3ba7ca8485ae67bb2bf894fe72f36e3cf1361d5f3af54fa5d182e6ad7f520e511f6c3e2b
    ++ hex 48 0x8c68059b6bbd41fbabd9831f79217e1319cde05b61626300000000000000000000000000000000000000000000000000
    ++ hex 48 0x000000000000000000000000000000000000000000000000000000000000000000000000000000000000000000000000
    ++ hex 48 0x000000000000000000000000000000000000000000000000000000000000000000000000000000000000000000000000
    ++ hex 21 0x000000000300000000000000000000000000000001

/-- The starting state of the vectors, "abc-H". -/
def abcH : Vector Word 8 := #v[
  0x6a09e667f2bdc948, 0xbb67ae8584caa73b, 0x3c6ef372fe94f82b, 0xa54ff53a5f1d36f1,
  0x510e527fade682d1, 0x9b05688c2b3e6c1f, 0x1f83d9abfb41bd6b, 0x5be0cd19137e2179]

/-- The operands of vector D-F-09: (11; abc-H; seq; (128, 0); 0). -/
def operandsDF09 : Operands where
  rounds := 11
  h := abcH
  block := Vector.ofFn fun j => BitVec.ofNat 8 j.val
  t := #v[128, 0]
  flag := false

/-- The operands of vector D-F-03: (0; 0; 0; (ALL_ONES, ALL_ONES); 1). -/
def operandsDF03 : Operands where
  rounds := 0
  h := Vector.replicate 8 0
  block := Vector.replicate 128 0
  t := #v[ALL_ONES, ALL_ONES]
  flag := true

/-- A frame of zeros with the flag byte `b`. -/
def zeroFrame (b : Byte) : Frame where
  rounds := 0
  h := Vector.replicate 8 0
  block := Vector.replicate 128 0
  t := Vector.replicate 2 0
  flagByte := b

/-- After reset, with a frame of zeros but for its flag byte 0x01 presented. -/
def zerosFlag : State := presented (List.replicate 212 0 ++ [0x01])

/-! Well-formedness: an ill-formed term for each check. -/

/-- R79: the flag byte is compared whole; 0x02 and 0x80 are illegal. -/
theorem test_wellFormed_flag : (Instr.frame213 (zeroFrame 0x02)).wellFormed = false
    ∧ (Instr.frame213 (zeroFrame 0x80)).wellFormed = false ∧ (Instr.frame213 (zeroFrame 0x01)).wellFormed = true := by decide

/-- R82: an item of 63 bytes is no result frame, so no move names it. -/
theorem test_wellFormed_readout : (HostMove.readout (List.replicate 63 0)).wellFormed = false
    ∧ hostMove (.readout (List.replicate 63 0)) State.reset = .refused .notAHostMove := ⟨by decide, rfl⟩

/-- R22: a sequence of 2^32 bytes or more cannot be presented. -/
theorem test_wellFormed_present (bs : List Byte) (h : bs.length = 2 ^ 32) :
    (HostMove.present bs).wellFormed = false ∧ hostMove (.present bs) State.reset = .refused .sequenceTooLong := by
  simp [HostMove.wellFormed, hostMove, hostPresent, h]

/-- R73, spec/93 U4: a reserved code is outside the admitted subset, and changes nothing all the same. -/
theorem test_admitted_issue : admittedMove (.issue 0x03) = false ∧ admittedMove (.issue 0x02) = true
    ∧ hostMove (.issue 0x03) State.reset = .next State.reset := ⟨by decide, by decide, rfl⟩

/-! Decoding: words written out from the encodings of R72, R74 and R82. -/

theorem test_decode_command : decode .cmd8 [0b00000001] = .ok .decode ∧ decode .cmd8 [0b00000010] = .ok .compress := ⟨rfl, rfl⟩

/-- The four codes next to the legal ones, and a legal code with bit 7 set: all eight bits are compared (R72). -/
theorem test_decode_reserved : [0x00#8, 0x03#8, 0x81#8, 0xFF#8].all (fun c => (decodeCommand c).isNone) = true := by decide

/-- D-D-01: every field at its place, and the frame encodes back to the bytes as printed. -/
theorem test_decode_frame : decode .frame213 frameDD01 = .ok (.frame213
    { rounds := 0x01020304
      h := #v[0x0807060504030201, 0x0807060504030202, 0x0807060504030203, 0x0807060504030204,
        0x0807060504030205, 0x0807060504030206, 0x0807060504030207, 0x0807060504030208]
      block := Vector.ofFn fun j => BitVec.ofNat 8 j.val
      t := #v[0x1112131415161718, 0x2122232425262728]
      flagByte := 0x01 }) := by
  have hw : (parseFrame (listView frameDD01)).wellFormed = true := by decide +kernel
  have hl : frameDD01.length = 213 := by decide +kernel
  simp only [decode, hl, ne_eq, not_true_eq_false, ↓reduceIte, hw]
  exact congrArg (fun x => Except.ok (Instr.frame213 x)) (by decide +kernel)

/-- R80, R182, R183: byte 212 alone decides, and a wrong length is reported first. -/
theorem test_decode_illegal : rejects .frame213 (List.replicate 212 0 ++ [0x02]) (.flagError 0x02) = true
    ∧ rejects .frame213 (List.replicate 212 0 ++ [0x02, 0x00]) (.lengthError 214) = true := by decide +kernel

/-- R82 with the example of R13: byte 0 of the frame is the low byte of word 0. -/
theorem test_decode_result : decode .result64 ([0x48, 0xc9, 0xbd, 0xf2, 0x67, 0xe6, 0x09, 0x6a] ++ List.replicate 56 0)
    = .ok (.result64 #v[0x6a09e667f2bdc948, 0, 0, 0, 0, 0, 0, 0]) :=
  congrArg (fun x => Except.ok (Instr.result64 x)) (by decide +kernel)

/-- The numbering of spec/opcode_table.json: frame bit `8 * i + k` is bit `k` of byte `i`. -/
theorem test_tableWord : decodeTableWord 8 0x02 = some .compress ∧ decodeTableWord 8 0x00 = none
    ∧ decodeTableWord 1704 (2 ^ (8 * 212 + 7)) = none := by decide +kernel

/-! One step of each instruction. -/

/-- D-D-01. -/
theorem test_decode_success : (after (exec .decode (presented frameDD01))).rounds = 16909060
    ∧ (after (exec .decode (presented frameDD01))).h[7] = 0x0807060504030208
    ∧ (after (exec .decode (presented frameDD01))).mem.read .blk 127 = 0x7f
    ∧ (after (exec .decode (presented frameDD01))).t[1] = 0x2122232425262728
    ∧ (after (exec .decode (presented frameDD01))).flag = true
    ∧ (after (exec .decode (presented frameDD01))).status = 0x00000002 := by decide +kernel

/-- D-D-08 (flag byte 0x80, ERR_INFO 128) and D-D-06 (length 214, tested first). -/
theorem test_decode_errors : (after (exec .decode (presented (List.replicate 212 0 ++ [0x80])))).status = 0x0000000B
    ∧ (after (exec .decode (presented (List.replicate 212 0 ++ [0x80])))).errInfo = 128
    ∧ (after (exec .decode (presented (List.replicate 212 0 ++ [0x02, 0x00])))).status = 0x00000007
    ∧ (after (exec .decode (presented (List.replicate 212 0 ++ [0x02, 0x00])))).errInfo = 214 := by decide +kernel

/-- D-F-09: eleven rounds, every schedule row once with sixteen different message words, and row 0 again. -/
theorem test_compress_wrap : resultBytes (compressF operandsDF09) =
    hex 32 0x2ca396e05a77fd044d7f16a0b9504f78ee840ef1aa74b142f46d4e2bdcdf5625
      ++ hex 32 0x27b058885bf2c57d3510efa85e43171450d480ab5939e0b16a03dea25b093c9c := by
  decide +kernel

/-- D-F-03: zero rounds, T = (ALL_ONES, ALL_ONES), FLAG = 1; through the whole step, to OBUF. -/
theorem test_compress_zero_rounds : (after (exec .compress (withOperands operandsDF03))).mem.readBytes .obuf 0 64 =
    hex 32 0x08c9bcf367e6096a3ba7ca8485ae67bb2bf894fe72f36e3cf1361d5f3af54fa5
      ++ hex 32 0x2e7d195280adf1aee093c1d47397fa649442be0454267ce079217e1319cde05b := by
  decide +kernel

/-- V1's frame, presented: its first, middle and last bytes in IBUF, ILEN = 213, no operand register touched. -/
theorem test_frame_presented : (after (step (State.reset.withFetchBytes .frame213 frameV1))).ilen = 213
    ∧ (after (step (State.reset.withFetchBytes .frame213 frameV1))).mem.read .ibuf 4 = 0x48
    ∧ (after (step (State.reset.withFetchBytes .frame213 frameV1))).mem.read .ibuf 68 = 0x61
    ∧ (after (step (State.reset.withFetchBytes .frame213 frameV1))).mem.read .ibuf 212 = 0x01
    ∧ (after (step (State.reset.withFetchBytes .frame213 frameV1))).mem.read .blk 0 = 0x00 := by decide +kernel

/-- R86: a CMD8 item of two bytes or of none is not placed. -/
theorem test_place_wrong_length : State.reset.withFetchBytes .cmd8 [0x01, 0x02] = State.reset
    ∧ State.reset.withFetchBytes .cmd8 [] = State.reset := ⟨rfl, rfl⟩

/-- The result frame of zeros is what a read-out gives right after reset (R38), and it takes nothing from the item's own bits. -/
theorem test_result_read_out :
    (after (step (State.reset.withFetchWord 512 (2 ^ 511)))).received = List.replicate 64 (.byte 0x00) := by decide +kernel

/-! Operations with printed vectors. -/

/-- D-G-02, whose eight lines the spec traces. -/
theorem test_mixG : mixG 0 1 2 3 5 6 #v[1, 2, 3, 4, 0, 0, 0, 0, 0, 0, 0, 0, 0, 0, 0, 0] =
    #v[0x0000010000000c0e, 0x181c021802181806, 0x0c0e000c010c0003, 0x0c0e0000010c0000, 0, 0, 0, 0, 0, 0, 0, 0, 0, 0, 0, 0] := by
  decide +kernel

/-- D-N-18, D-N-19: rotation by 16 and by 63. -/
theorem test_rotate : (0x0123456789abcdef#64).rotateRight 16 = 0xcdef0123456789ab#64
    ∧ (0x0123456789abcdef#64).rotateRight 63 = 0x02468acf13579bde#64 := by decide

/-- R83: the seven values of STATUS. -/
theorem test_status_words : statusWord 0#2 (stCode .busy) = 0x00000001 ∧ statusWord 1#2 (stCode .busy) = 0x00000005
    ∧ statusWord 2#2 (stCode .busy) = 0x00000009 ∧ statusWord 1#2 (stCode .err) = 0x00000007
    ∧ statusWord 2#2 (stCode .err) = 0x0000000B := by decide

/-- R165: a command issued after a FlagError leaves ERR standing: STATUS = 0x00000009. -/
theorem test_issue_keeps_err :
    (after (hostMove (.issue 0x02) (withStatus 0x0000000B 2 .none))).status = 0x00000009 := by decide

/-- A write that empties a byte removes its cell: equal memories are equal data. -/
theorem test_memory_canonical : ((Memory.reset.write .blk 5 0x07).write .blk 5 0x00) = Memory.reset := by decide

/-! ## Witnesses

A state and operands that meet all the hypotheses of the statement the theorem is named after, at the edges of each clause. -/

/-- The codes at the edges of the reserved range (R73). -/
theorem witness_CommandCodes : (0x00#8 ≠ 0x01#8 ∧ 0x00#8 ≠ 0x02#8) ∧ (0x03#8 ≠ 0x01#8 ∧ 0x03#8 ≠ 0x02#8) := by decide

/-- Both flag bytes. -/
theorem witness_DecodeOfEncode : (Instr.frame213 (zeroFrame 0x00)).wellFormed = true
    ∧ (Instr.frame213 (zeroFrame 0x01)).wellFormed = true ∧ Instr.decode.wellFormed = true
    ∧ (Instr.result64 (Vector.replicate 8 ALL_ONES)).wellFormed = true := by decide

theorem witness_FrameBijection : frameDD01.length = 213 ∧ listView frameDD01 212 = 0x01#8 := by decide +kernel

/-- Lengths 212 and 214; flag bytes 0x02 and 0xFF; and both legal ones. -/
theorem witness_IllegalFramesExactly :
    (List.replicate 212 0x00#8).length ≠ 213 ∧ (List.replicate 214 0x00#8).length ≠ 213
    ∧ (List.replicate 213 0xFF#8).length = 213 ∧ listView (List.replicate 213 0xFF#8) 212 = 0xFF#8
    ∧ listView (List.replicate 212 0x00#8 ++ [0x02#8]) 212 = 0x02#8
    ∧ listView (List.replicate 213 0x00#8) 212 = 0x00#8
    ∧ listView (List.replicate 213 0x01#8) 212 = 0x01#8 := by decide +kernel

theorem witness_LittleEndianCodec : ([1, 2, 3, 4, 5, 6, 7, 8] : List Byte).length = 8 ∧ 0 < 8 ∧ 7 < 8 := by decide

theorem witness_BigEndianCodec : ([1, 2, 3, 4] : List Byte).length = 4 ∧ 0 < 4 ∧ 3 < 4 := by decide

/-- D-D-03 and D-D-04. -/
theorem witness_DecodeLengthError : (presented (List.replicate 212 0)).ilen ≠ 213#32
    ∧ (presented (List.replicate 214 0)).ilen ≠ 213#32 := by decide +kernel

/-- D-D-07 and D-D-09. -/
theorem witness_DecodeFlagError :
    ((presented (List.replicate 212 0 ++ [0x02])).ilen = 213#32
      ∧ (presented (List.replicate 212 0 ++ [0x02])).mem.read .ibuf 212 = 0x02#8)
    ∧ ((presented (List.replicate 212 0 ++ [0xFF])).ilen = 213#32
      ∧ (presented (List.replicate 212 0 ++ [0xFF])).mem.read .ibuf 212 = 0xFF#8) := by decide +kernel

/-- D-D-11 (flag byte 0x00), and the same with flag byte 0x01. -/
theorem witness_DecodeSuccess :
    ((presented (List.replicate 213 0)).ilen = 213#32 ∧ (presented (List.replicate 213 0)).mem.read .ibuf 212 = 0x00#8)
    ∧ (zerosFlag.ilen = 213#32 ∧ zerosFlag.mem.read .ibuf 212 = 0x01#8) := by decide +kernel

/-- Two states that agree on the input and differ in the operands and the status. -/
theorem witness_DecodePurity :
    zerosFlag.ilen = ({ zerosFlag with rounds := 7#32, status := 2#32 } : State).ilen
    ∧ (∀ i, i < 213 → zerosFlag.mem.read .ibuf i
        = ({ zerosFlag with rounds := 7#32, status := 2#32 } : State).mem.read .ibuf i)
    ∧ (after (exec .decode zerosFlag)).status = 0x00000002#32 := ⟨rfl, fun _ _ => rfl, by decide +kernel⟩

/-- Two states that agree on the operands and differ in the input and the hidden registers. -/
theorem witness_CompressPurity :
    (withOperands operandsDF09).operands = ({ withOperands operandsDF09 with ilen := 5#32, r := 9#32 } : State).operands :=
  State.operands_congr rfl rfl (fun _ _ => rfl) rfl rfl

theorem witness_ZeroRounds : (withOperands operandsDF03).rounds = 0#32 := rfl

/-- The quadruple (0, 4, 8, 12), and one in falling order. -/
theorem witness_MixingPrimitive :
    ((0 : Fin 16) ≠ 4 ∧ (0 : Fin 16) ≠ 8 ∧ (0 : Fin 16) ≠ 12 ∧ (4 : Fin 16) ≠ 8 ∧ (4 : Fin 16) ≠ 12 ∧ (8 : Fin 16) ≠ 12)
    ∧ ((15 : Fin 16) ≠ 3 ∧ (15 : Fin 16) ≠ 2 ∧ (15 : Fin 16) ≠ 0 ∧ (3 : Fin 16) ≠ 2 ∧ (3 : Fin 16) ≠ 0
      ∧ (2 : Fin 16) ≠ 0) := by decide

/-- The column step's four applications in another order. -/
theorem witness_QuadruplesCommute (a b c d : WorkVec → WorkVec) : [b, a, d, c].Perm [a, b, c, d] :=
  (List.Perm.swap a b _).trans (((List.Perm.swap c d []).cons b).cons a)

theorem witness_FlagAtZeroRounds : operandsDF03.rounds = 0#32 ∧ (0 : Fin 8) ≠ 6 ∧ (7 : Fin 8) ≠ 6 := by decide

/-- Before the first round and after the last. -/
theorem witness_FineSteppingAgrees : 0 ≤ (withOperands operandsDF09).rounds.toNat
    ∧ 11 ≤ (withOperands operandsDF09).rounds.toNat := by decide

/-- After a LengthError, and after a FlagError. -/
theorem witness_StaleOperandsAfterError :
    (∃ t, exec .decode State.reset = .next t ∧ t.st = 3#2)
    ∧ (∃ t, exec .decode (presented (List.replicate 212 0 ++ [0x02])) = .next t ∧ t.st = 3#2) :=
  ⟨⟨_, execDecode_of_length (by decide), by decide⟩,
    ⟨_, execDecode_of_flag (by decide +kernel) (by decide +kernel), by decide +kernel⟩⟩

theorem witness_FramePresented : State.reset.busy = false ∧ 0 < 213 ∧ 212 < 213 ∧ (Space.obuf ≠ .ibuf) := by decide

theorem witness_FrameHeldWhileBusy : (busyHost [] []).busy = true := by decide

/-- Shorter than a frame, and longer than IBUF. -/
theorem witness_FrameIsLoadframe : (List.replicate 5 0x00#8).length < 2 ^ 32 ∧ (List.replicate 300 0x00#8).length < 2 ^ 32
    ∧ State.reset.busy = false := by decide +kernel

theorem witness_TwoPathsAgree : (presented frameV1).busy = false := rfl

/-- Idle, with the indices at the ends of their ranges, and busy. -/
theorem witness_HostWrites : State.reset.busy = false ∧ (busyHost [] []).busy = true ∧ ((212 : Fin 213).val = 212) ∧ ((127 : Fin 128).val = 127)
    ∧ ((7 : Fin 8).val = 7) ∧ ((1 : Fin 2).val = 1) := by decide

/-- A write made, and a write held. -/
theorem witness_WritesAreIdempotent :
    (State.reset.mem.wf = true ∧ heldMove (.wrFlag true) = true ∧ (∀ c, HostMove.wrFlag true ≠ .issue c)
      ∧ ∃ t, hostMove (.wrFlag true) State.reset = .next t)
    ∧ (∃ t, hostMove (.wrIbuf 212 0xFF) (busyHost [] []) = .next t) :=
  ⟨⟨rfl, rfl, fun _ => HostMove.noConfusion, ⟨_, rfl⟩⟩, ⟨_, rfl⟩⟩

theorem witness_MixedWidthBlock : State.reset.busy = false ∧ 0 < 8 ∧ 7 < 8 ∧ ((127 : Fin 128).val / 8 = 15) := by decide

/-- A read on the host's turn while an operation is in progress, and one with nothing in progress. -/
theorem witness_HostReads :
    ((busyHost [.rd .status] [.host]).pending = .rd .status :: [] ∧ (busyHost [.rd .status] [.host]).busy = true
      ∧ (busyHost [.rd .status] [.host]).turns = .host :: [])
    ∧ ((withHost [.rd (.obuf 63)]).pending = .rd (.obuf 63) :: [] ∧ (withHost [.rd (.obuf 63)]).busy = false) := by decide

/-- Each clause: a command, a reserved code, and an issue held. -/
theorem witness_CommandIssue : State.reset.busy = false ∧ (0x02#8 = 0x01#8 ∨ 0x02#8 = 0x02#8)
    ∧ (0x03#8 ≠ 0x01#8 ∧ 0x03#8 ≠ 0x02#8) ∧ (busyHost [] []).busy = true := by decide

theorem witness_BusyHold : (busyHost [.wrFlag true] []).busy = true ∧ (busyHost [.wrFlag true] []).op ≠ .none
    ∧ (busyHost [.wrFlag true] []).pending = .wrFlag true :: [] ∧ heldMove (.wrFlag true) = true := by decide

/-- A command with nothing after it, and one with a held write after it. -/
theorem witness_CommandSeesEarlierWrites :
    ((withHost [.issue 0x01]).busy = false ∧ (withHost [.issue 0x01]).pending = .issue 0x01 :: []
      ∧ ∀ mv ∈ ([] : List HostMove).head?, heldMove mv = true)
    ∧ ((withHost [.issue 0x02, .wrFlag true]).pending = .issue 0x02 :: [.wrFlag true]
      ∧ ∀ mv ∈ [HostMove.wrFlag true].head?, heldMove mv = true) := by decide

/-- A read that goes ahead while an operation is in progress. -/
theorem witness_NothingChangesWhileBusy : (busyHost [.rd .status] [.host]).busy = true
    ∧ ∃ t, step (busyHost [.rd .status] [.host]) = .next t ∧ t.busy = true := ⟨by decide, ⟨_, rfl, by decide⟩⟩

/-- A write, and an issue. -/
theorem witness_HostCannotWriteResults :
    (HostMove.wrFlag true ≠ .reset ∧ ∃ t, hostMove (.wrFlag true) State.reset = .next t)
    ∧ (HostMove.issue 0x01 ≠ .reset ∧ ∃ t, hostMove (.issue 0x01) State.reset = .next t) :=
  ⟨⟨by decide, ⟨_, rfl⟩⟩, ⟨by decide, ⟨_, rfl⟩⟩⟩

/-- Inactivity, a completion, and a reset. -/
theorem witness_OnlyCompletionPublishes : (∃ t, step State.reset = .next t) ∧ (∃ t, step (busyHost [] []) = .next t)
    ∧ ∃ t, step (withHost [.reset]) = .next t := ⟨⟨_, rfl⟩, ⟨_, step_engine_last (by decide) rfl⟩, ⟨_, rfl⟩⟩

theorem witness_ResetAbandonsOperation : (busyHost [.reset, .wrFlag true] [.host]).busy = true
    ∧ (busyHost [.reset, .wrFlag true] [.host]).pending = .reset :: .wrFlag true :: []
    ∧ (busyHost [.reset, .wrFlag true] [.host]).turns = .host :: [] := by decide

/-- The last poll, and one that reads BUSY. -/
theorem witness_WaitPolls :
    ((withHost [.wait]).pending = .wait :: [] ∧ (withHost [.wait]).busy = false)
    ∧ ({ withStatus 2 0 .none with pending := [.wait] } : State).st ≠ 0#2
    ∧ ((busyHost [.wait] [.host]).pending = .wait :: [] ∧ (busyHost [.wait] [.host]).busy = true
      ∧ (busyHost [.wait] [.host]).turns = .host :: []) := by decide

/-- One item of each format. -/
theorem witness_StepRunsDecoded : decode .cmd8 [0x01#8] = .ok .decode
    ∧ (∃ i, decode .frame213 (List.replicate 213 0x00#8) = .ok i)
    ∧ (∃ i, decode .result64 (List.replicate 64 0x00#8) = .ok i) :=
  ⟨rfl, exists_of_toBool (by decide +kernel), exists_of_toBool (by decide +kernel)⟩

/-- Each clause in turn. -/
theorem witness_AgentsTakeTurns :
    (State.reset.busy = false ∧ State.reset.pending = [])
    ∧ ((withHost [.reset]).busy = false ∧ (withHost [.reset]).pending = .reset :: [])
    ∧ ((busyDecode [.wrFlag true]).busy = true ∧ (busyDecode [.wrFlag true]).hostEnabled = false
      ∧ (busyDecode [.wrFlag true]).op = .decode)
    ∧ ((busyHost [] []).busy = true ∧ (busyHost [] []).hostEnabled = false ∧ (busyHost [] []).op = .compress)
    ∧ ((busyDecode [.wait]).hostEnabled = true ∧ (busyDecode [.wait]).turns = [] ∧ (busyDecode [.wait]).op = .decode)
    ∧ ((busyHost [.wait] []).hostEnabled = true ∧ (busyHost [.wait] []).turns = [] ∧ (busyHost [.wait] []).op = .compress)
    ∧ ((busyHost [.wait] [.host]).pending = .wait :: [] ∧ heldMove .wait = false ∧ (busyHost [.wait] [.host]).turns = .host :: [])
    ∧ ((busyHost [.wait] [.engine]).hostEnabled = true ∧ (busyHost [.wait] [.engine]).turns = .engine :: []) := by decide

/-- The STATUS values of R83 with an ERR_INFO and an OP each can stand with. -/
def legalStatuses : List (U32 × U32 × Operation) :=
  [(0x00000000, 0, .none), (0x00000001, 0, .decode), (0x00000002, 0, .none), (0x00000005, 212, .compress),
   (0x00000007, 214, .none), (0x00000009, 2, .decode), (0x0000000B, 255, .none)]

/-- Each of the seven STATUS values stands in a state that meets the invariant. -/
theorem witness_StatusHasSevenValues : ∀ x ∈ legalStatuses, (withStatus x.1 x.2.1 x.2.2).Inv := by
  intro x hx
  simp only [legalStatuses, List.mem_cons, List.not_mem_nil, or_false] at hx
  rcases hx with rfl | rfl | rfl | rfl | rfl | rfl | rfl <;>
    exact ⟨rfl, by decide, by decide, by decide, fun h => ⟨by revert h; decide, fun j => Memory.read_reset .obuf j⟩,
      by decide, by decide, by decide, by decide, by decide⟩

/-- A step with an operation in progress, after a FlagError. -/
theorem witness_StepKeepsInvariant : (withStatus 0x00000009 2 .decode).Inv ∧ ∃ t, step (withStatus 0x00000009 2 .decode) = .next t :=
  ⟨witness_StatusHasSevenValues (0x00000009, 2, .decode) (by decide),
    ⟨_, (step_engine_last (by decide) rfl).trans (execDecode_of_length (s := withStatus 0x00000009 2 .decode) (by decide))⟩⟩

theorem witness_StepNeverStops : (withStatus 0x00000005 212 .compress).Inv
    ∧ (withStatus 0x00000005 212 .compress).hostWellFormed = true :=
  ⟨witness_StatusHasSevenValues (0x00000005, 212, .compress) (by decide), by decide⟩

/-- A host that polls twice before the engine's turn comes. -/
theorem witness_OperationCompletes : (busyHost [.wait] [.host, .host]).busy = true ∧ (busyHost [.wait] [.host, .host]).op ≠ .none
    ∧ (busyHost [.wait] [.host, .host]).hostWellFormed = true
    ∧ ∀ mv ∈ (busyHost [.wait] [.host, .host]).pending, mv ≠ .reset := by decide

/-- Instance 1 of two, and of three. -/
theorem witness_InstancesShareNothing :
    (Platform.reset 2).cores[1]? = some State.reset ∧ (Platform.reset 3).cores[1]? = some State.reset
    ∧ step State.reset = .next State.reset ∧ ∃ p', (Platform.reset 2).stepAt 1 = .next p' := ⟨rfl, rfl, rfl, ⟨_, rfl⟩⟩

end Sys2Proof.Tests
end

section
/-! The obligations of spec/00_scope.md: the byte-order codecs (R13, R14), what DECODE and COMPRESS depend on (R9), and which agent
steps (R6). -/

namespace Sys2Proof.Proofs

open Sys2Proof.Machine

/-! ## `LE64` and `toLE64` (R13) -/

@[simp] theorem length_toLE64 (w : Word) : (toLE64 w).length = 8 := length_bytesOf (leByte w) 8

theorem listView_toLE64 (w : Word) {k : Nat} (hk : k < 8) : listView (toLE64 w) k = leByte w k :=
  listView_bytesOf (leByte w) 8 k hk

/-- The bit slice `w[8k+7:8k]` as arithmetic. -/
theorem leByte_toNat (w : Word) (k : Nat) : (leByte w k).toNat = w.toNat / 2 ^ (8 * k) % 2 ^ 8 := by
  rw [leByte, BitVec.extractLsb'_toNat, Nat.shiftRight_eq_div_pow]

theorem le64_toLE64 (w : Word) : le64 (listView (toLE64 w)) 0 = w :=
  le64_leByte _ 0 w fun k hk => by rw [Nat.zero_add, listView_toLE64 w hk]

theorem toLE64_le64 (bs : List Byte) (h : bs.length = 8) : toLE64 (le64 (listView bs) 0) = bs := by
  calc toLE64 (le64 (listView bs) 0)
    _ = bytesOf (listView bs) 8 := bytesOf_congr fun k hk => by rw [leByte_le64 _ 0 k hk, Nat.zero_add]
    _ = bs := by rw [← h, bytesOf_listView]

/-- Settles O6: the sum and the bit slices of R13, and each codec undoes the other byte by byte. -/
theorem littleEndianCodec : Obligations.LittleEndianCodec := by
  refine ⟨le64_toNat, fun w => ⟨length_toLE64 w, fun k hk => ?_⟩, le64_toLE64, toLE64_le64, by decide⟩
  rw [listView_toLE64 w hk, leByte_toNat]

/-! ## `BE32` and `toBE32` (R14) -/

@[simp] theorem length_toBE32 (n : U32) : (toBE32 n).length = 4 := length_bytesOf (beByte n) 4

theorem listView_toBE32 (n : U32) {k : Nat} (hk : k < 4) : listView (toBE32 n) k = beByte n k :=
  listView_bytesOf (beByte n) 4 k hk

/-- The bit slices `n[31:24]`, `n[23:16]`, `n[15:8]`, `n[7:0]` as arithmetic. -/
theorem beByte_toNat (n : U32) (k : Nat) : (beByte n k).toNat = n.toNat / 2 ^ (8 * (3 - k)) % 2 ^ 8 := by
  rw [beByte, BitVec.extractLsb'_toNat, Nat.shiftRight_eq_div_pow]

theorem be32_toBE32 (n : U32) : be32 (listView (toBE32 n)) 0 = n :=
  be32_beByte _ 0 n fun k hk => by rw [Nat.zero_add, listView_toBE32 n hk]

theorem toBE32_be32 (bs : List Byte) (h : bs.length = 4) : toBE32 (be32 (listView bs) 0) = bs := by
  calc toBE32 (be32 (listView bs) 0)
    _ = bytesOf (listView bs) 4 := bytesOf_congr fun k hk => by rw [beByte_be32 _ 0 k hk, Nat.zero_add]
    _ = bs := by rw [← h, bytesOf_listView]

/-- Settles O7: the sum and the bit slices of R14, and each codec undoes the other byte by byte. -/
theorem bigEndianCodec : Obligations.BigEndianCodec := by
  refine ⟨be32_toNat, fun n => ⟨length_toBE32 n, fun k hk => ?_⟩, be32_toBE32, toBE32_be32, by decide⟩
  rw [listView_toBE32 n hk, beByte_toNat]

/-! ## DECODE depends on ILEN and IBUF alone (R9, R107) -/

/-- A raised error never leaves the STATUS of a success (R83). -/
theorem raise_status_ne_ok (e : DecodeError) (s : State) : (s.raise e).status ≠ 0x00000002#32 := fun h => by
  have hst := State.raise_st e s
  rw [State.st, h] at hst
  exact absurd hst (by decide)

@[simp] theorem completeOk_operands (s : State) : s.completeOk.operands = s.operands :=
  State.operands_congr (State.completeOk_rounds s) (State.completeOk_h s) (fun _ _ => by rw [State.completeOk_mem])
    (State.completeOk_t s) (State.completeOk_flag s)

/-- Settles O12: both states take the same one of DECODE's three ways, since its checks read ILEN and then the frame in IBUF; what
that way writes is ILEN, the flag byte, or the operands of the frame. -/
theorem decodePurity : Obligations.DecodePurity := by
  intro s s' hilen hibuf
  by_cases hl : s.ilen = 213#32
  · have hl' : s'.ilen = 213#32 := hilen ▸ hl
    have hframe : parseFrame (s.mem.read .ibuf) = parseFrame (s'.mem.read .ibuf) := parseFrame_congr (hibuf hl)
    cases hw : (parseFrame (s.mem.read .ibuf)).wellFormed with
    | true =>
      refine ⟨_, _, execDecode_of_legal hl hw, execDecode_of_legal hl' (hframe ▸ hw), ?_, ?_, fun _ => ?_⟩
      · rw [State.completeOk_status, State.completeOk_status]
      · rw [State.completeOk_errInfo, State.completeOk_errInfo]
      · rw [completeOk_operands, completeOk_operands, State.setOperands_operands, State.setOperands_operands, hframe]
    | false =>
      have hbyte : s.mem.read .ibuf 212 = s'.mem.read .ibuf 212 := hibuf hl 212 (by decide)
      refine ⟨_, _, execDecode_of_flag hl hw, execDecode_of_flag hl' (hframe ▸ hw), ?_, ?_,
        fun h => absurd h (raise_status_ne_ok _ s)⟩
      · rw [State.raise_status, State.raise_status, hbyte]
      · rw [State.raise_errInfo, State.raise_errInfo, hbyte]
  · refine ⟨_, _, execDecode_of_length hl, execDecode_of_length (hilen ▸ hl), ?_, ?_,
      fun h => absurd h (raise_status_ne_ok _ s)⟩
    · rw [State.raise_status, State.raise_status, hilen]
    · rw [State.raise_errInfo, State.raise_errInfo, hilen]

/-! ## COMPRESS depends on the five operands alone (R9, R137) -/

/-- What COMPRESS leaves in OBUF is a function of the five operands (R129). -/
theorem read_obuf_compressed (s : State) {j : Nat} (hj : j < 64) :
    s.compressed.mem.read .obuf j = wordsView (compressF s.operands) j := by
  rw [State.read_compressed, if_pos ⟨rfl, hj⟩]

/-- Settles O15: OBUF holds the words of F on the operands, which the two states share and which COMPRESS keeps. -/
theorem compressPurity : Obligations.CompressPurity := by
  intro s s' hops
  refine ⟨_, _, _, execCompress_eq s, execCompress_eq s', execCompress_eq s.compressed, fun j hj => ?_, fun j hj => ?_, ?_, ?_⟩
  · rw [read_obuf_compressed s hj, read_obuf_compressed s' hj, hops]
  · rw [read_obuf_compressed s.compressed hj, read_obuf_compressed s hj, State.compressed_operands]
  · rw [State.compressed_status, State.compressed_status]
  · rw [State.compressed_errInfo, State.compressed_errInfo]

/-! ## Which agent steps (R6, R61) -/

/-- The engine performs the operation that OP names (R167). -/
theorem engineStep_of_op {s : State} {i : Instr} (h : instrOfOperation s.op = some i) : engineStep s = exec i s := by
  simp only [engineStep, h]

/-- Settles O51: each clause is one branch of the scheduler, and where the engine moves it performs what OP names. -/
theorem agentsTakeTurns : Obligations.AgentsTakeTurns := by
  have hdecode {s : State} (h : s.op = .decode) : engineStep s = exec .decode s := engineStep_of_op (by rw [h]; rfl)
  have hcompress {s : State} (h : s.op = .compress) : engineStep s = exec .compress s := engineStep_of_op (by rw [h]; rfl)
  intro s
  refine ⟨step_idle, fun _ _ => step_host, fun hb hh ho => ?_, fun hb hh ho => ?_, fun hb _ ht ho => ?_, fun hb _ ht ho => ?_,
    fun _ _ _ => step_host_turn, fun _ => step_engine_turn⟩
  · rw [step_engine hb hh, hdecode ho]
  · rw [step_engine hb hh, hcompress ho]
  · rw [step_engine_last hb ht, hdecode ho]
  · rw [step_engine_last hb ht, hcompress ho]

end Sys2Proof.Proofs
end

section
/-! The obligations of spec/10_state.md: the invariant of every reachable state (R29, R34, R83, R84), the reset state (R38), what a
presented frame and a completed COMPRESS write (R22, R28), and the separation of instances (R40). -/

namespace Sys2Proof.Proofs

open Sys2Proof.Machine

/-! ## The reset state (R38, R200) -/

/-- Settles O47: each register of the state a RESET leaves is that register of `State.reset`, and the host's fields are kept. -/
theorem resetRegisters : Obligations.ResetRegisters := by
  intro s
  refine ⟨s.resetRegisters, rfl, Memory.read_reset, rfl, rfl, fun i => ?_, fun j => ?_, rfl, rfl, rfl, rfl, ⟨rfl, rfl, rfl⟩⟩
  · exact Vector.getElem_replicate i.isLt
  · exact Vector.getElem_replicate j.isLt

/-- Settles O52: STATUS = 0 is the IDLE line of R29, with ERR_INFO = 0, OP = 0 and every buffer zero. -/
theorem resetMeetsInvariant : Obligations.ResetMeetsInvariant where
  memory := Memory.reset_wf
  reserved := by decide
  errLegal := by decide
  opIdle := by decide
  idle := fun _ => ⟨by decide, Memory.read_reset .obuf⟩
  ok := by decide
  failed := by decide
  infoNone := by decide
  infoLength := by decide
  infoFlag := by decide

/-! ## The invariant, one lemma per way of writing the status (R29, R34, R84) -/

/-- The invariant speaks of the buffers' form, OBUF, STATUS, ERR_INFO and OP alone. -/
theorem inv_of_status_eq {s t : State} (hs : s.Inv) (hmem : t.mem.wf = true)
    (hobuf : ∀ j, t.mem.read .obuf j = s.mem.read .obuf j) (hstatus : t.status = s.status) (herrInfo : t.errInfo = s.errInfo)
    (hop : t.op = s.op) : t.Inv := by
  have hst : t.st = s.st := congrArg (BitVec.extractLsb' 0 2) hstatus
  have herr : t.err = s.err := congrArg (BitVec.extractLsb' 2 2) hstatus
  exact {
    memory := hmem
    reserved := by rw [hstatus]; exact hs.reserved
    errLegal := by rw [herr]; exact hs.errLegal
    opIdle := by rw [hop, State.busy_congr hstatus]; exact hs.opIdle
    idle := by simp only [hst, herr, hobuf]; exact hs.idle
    ok := by rw [hst, herr]; exact hs.ok
    failed := by rw [hst, herr]; exact hs.failed
    infoNone := by rw [herr, herrInfo]; exact hs.infoNone
    infoLength := by rw [herr, herrInfo]; exact hs.infoLength
    infoFlag := by rw [herr, herrInfo]; exact hs.infoFlag }

/-- The host's list of moves and the turns are no part of the invariant. -/
theorem inv_withHost {s : State} (hs : s.Inv) (pending : List HostMove) (turns : List Agent) :
    State.Inv { s with pending := pending, turns := turns } :=
  inv_of_status_eq hs hs.memory (fun _ => rfl) rfl rfl rfl

theorem inv_resetRegisters (s : State) : s.resetRegisters.Inv :=
  inv_of_status_eq resetMeetsInvariant Memory.reset_wf (fun _ => rfl) rfl rfl rfl

/-- A completion writes STATUS as a whole, so its invariant is about what it writes. -/
theorem inv_completeOk {s : State} (hmem : s.mem.wf = true) : s.completeOk.Inv where
  memory := hmem
  reserved := statusWord_reserved _ _
  errLegal := by simp
  opIdle := by simp
  idle := by simp [stCode]
  ok := fun _ => State.completeOk_err s
  failed := by simp [stCode]
  infoNone := fun _ => State.completeOk_errInfo s
  infoLength := by simp
  infoFlag := by simp

theorem errCode_legal (e : DecodeError) : errCode e = 1#2 ∨ errCode e = 2#2 := by
  cases e with
  | lengthError n => exact .inl rfl
  | flagError b => exact .inr rfl

/-- An error taken with a number that its code admits (R84). -/
theorem inv_raise {e : DecodeError} {s : State} (hmem : s.mem.wf = true)
    (hlength : errCode e = 1#2 → errValue e ≠ 213#32)
    (hflag : errCode e = 2#2 → 2 ≤ (errValue e).toNat ∧ (errValue e).toNat ≤ 255) : (s.raise e).Inv where
  memory := hmem
  reserved := statusWord_reserved _ _
  errLegal := by rw [State.raise_err]; rcases errCode_legal e with h | h <;> rw [h] <;> decide
  opIdle := by simp
  idle := by simp [stCode]
  ok := by simp [stCode]
  failed := fun _ => by rw [State.raise_err]; exact errCode_legal e
  infoNone := by rw [State.raise_err]; rcases errCode_legal e with h | h <;> simp [h]
  infoLength := by simpa using hlength
  infoFlag := by simpa using hflag

theorem inv_raise_lengthError {s : State} {n : U32} (hmem : s.mem.wf = true) (hn : n ≠ 213#32) :
    (s.raise (.lengthError n)).Inv :=
  inv_raise hmem (fun _ => hn) (by simp [errCode])

/-- An illegal flag byte, zero-extended, is in [2, 255]. -/
theorem inv_raise_flagError {s : State} {b : Byte} (hmem : s.mem.wf = true) (h0 : b ≠ 0x00#8) (h1 : b ≠ 0x01#8) :
    (s.raise (.flagError b)).Inv := by
  have hrange : 2 ≤ (b.setWidth 32).toNat ∧ (b.setWidth 32).toNat ≤ 255 := by bv_omega
  exact inv_raise hmem (by simp [errCode]) fun _ => hrange

/-- The issue step writes ST and OP together, and leaves ERR and ERR_INFO as they were (R165). -/
theorem inv_startOperation {s : State} {o : Operation} (hs : s.Inv) (ho : o ≠ .none) : (s.startOperation o).Inv where
  memory := hs.memory
  reserved := (State.startOperation_reserved o s).trans hs.reserved
  errLegal := by rw [State.startOperation_err]; exact hs.errLegal
  opIdle := by simp [ho]
  idle := by simp [stCode]
  ok := by simp [stCode]
  failed := by simp [stCode]
  infoNone := by rw [State.startOperation_err]; exact hs.infoNone
  infoLength := by rw [State.startOperation_err]; exact hs.infoLength
  infoFlag := by rw [State.startOperation_err]; exact hs.infoFlag

/-! ## Every step keeps the invariant -/

theorem wf_setOperands {s : State} (x : Operands) (hmem : s.mem.wf = true) : (s.setOperands x).mem.wf = true :=
  Memory.wf_writeBytes .blk hmem (by simp [Space.size])

theorem inv_compressed {s : State} (hmem : s.mem.wf = true) : s.compressed.Inv :=
  inv_completeOk (Memory.wf_writeBytes .obuf hmem (by simp [Space.size]))

/-- A command starts an operation (R72, R165). -/
theorem operationOf_decodeCommand_ne_none {c : Byte} {i : Instr} (h : decodeCommand c = some i) : operationOf i ≠ .none := by
  simp only [decodeCommand] at h
  split_ifs at h <;> obtain rfl := Option.some.inj h <;> decide

theorem engineStep_keeps_inv {s t : State} (hmem : s.mem.wf = true) (h : engineStep s = .next t) : t.Inv := by
  obtain ⟨-, hlen, rfl⟩ | ⟨-, -, h0, h1, rfl⟩ | ⟨-, -, -, rfl⟩ | ⟨-, rfl⟩ := engineStep_cases h
  · exact inv_raise_lengthError hmem hlen
  · exact inv_raise_flagError hmem h0 h1
  · exact inv_completeOk (wf_setOperands _ hmem)
  · exact inv_compressed hmem

theorem hostMove_keeps_inv {mv : HostMove} {s t : State} (hs : s.Inv) (h : hostMove mv s = .next t) : t.Inv := by
  obtain ⟨-, rfl⟩ | ⟨c, i, -, -, hc, rfl⟩ | ⟨-, -, ht, hobuf, hwf⟩ | ⟨ht, -⟩ := hostMove_cases h
  · exact inv_resetRegisters s
  · exact inv_startOperation hs (operationOf_decodeCommand_ne_none hc)
  · exact inv_of_status_eq hs (hwf hs.memory) hobuf (by rw [ht]) (by rw [ht]) (by rw [ht])
  · rw [ht]
    exact inv_of_status_eq hs hs.memory (fun _ => rfl) rfl rfl rfl

/-- Settles O53: a completion writes a legal status whatever stood there before, and every host move keeps the invariant. -/
theorem stepKeepsInvariant : Obligations.StepKeepsInvariant := by
  intro s t hs h
  obtain ⟨-, -, e⟩ | ⟨-, ts, e⟩ | ⟨mv, rest, ts, -, -, e⟩ := step_cases s <;> rw [e] at h
  · exact Host.Outcome.next.inj h ▸ hs
  · exact engineStep_keeps_inv (s := { s with turns := ts }) hs.memory h
  · exact hostMove_keeps_inv (inv_withHost hs rest ts) h

/-! ## What a presented frame writes (R22, R88) -/

/-- Settles O29: with nothing in progress the frame is loaded, and its 213 bytes are all of IBUF. -/
theorem framePresented : Obligations.FramePresented := by
  intro x s hidle
  refine ⟨_, execFrame213_of_idle x hidle, ?_, fun i hi => ?_, fun sp a ha => ?_⟩
  · rw [State.loadSequence, length_frameBytes]
  · rw [State.read_loadSequence, if_pos ⟨rfl, hi, by rwa [length_frameBytes]⟩]
    rfl
  · rw [State.read_loadSequence, if_neg]
    rintro ⟨hsp, hlt, -⟩
    exact ha.elim (· hsp) (Nat.not_le.2 hlt)

/-! ## What writes OBUF (R28) -/

/-- The engine writes OBUF only by completing a COMPRESS, and then all 64 bytes with the status. -/
theorem engineStep_obuf {s t : State} (h : engineStep s = .next t) :
    (∀ j, t.mem.read .obuf j = s.mem.read .obuf j) ∨ (s.op = .compress ∧ t = s.compressed) := by
  obtain ⟨-, -, rfl⟩ | ⟨-, -, -, -, rfl⟩ | ⟨-, -, -, rfl⟩ | hc := engineStep_cases h
  · exact .inl fun _ => rfl
  · exact .inl fun _ => rfl
  · exact .inl fun j => by rw [State.completeOk_mem, State.read_setOperands, if_neg (fun e => nomatch e.1)]
  · exact .inr hc

/-- A host move writes OBUF only by RESET. -/
theorem hostMove_obuf {mv : HostMove} {s t : State} (h : hostMove mv s = .next t) :
    (∀ j, t.mem.read .obuf j = s.mem.read .obuf j) ∨ (mv = .reset ∧ ∀ j, t.mem.read .obuf j = 0x00#8) := by
  obtain ⟨hmv, rfl⟩ | ⟨c, i, -, -, -, rfl⟩ | ⟨-, -, -, hobuf, -⟩ | ⟨ht, -⟩ := hostMove_cases h
  · exact .inr ⟨hmv, Memory.read_reset .obuf⟩
  · exact .inl fun _ => rfl
  · exact .inl hobuf
  · exact .inl fun j => by rw [ht]

/-- Byte `k` of word `i` of the result frame, where COMPRESS puts it (R129). -/
theorem read_obuf_compressed_word (s : State) (i : Fin 8) {k : Nat} (hk : k < 8) :
    s.compressed.mem.read .obuf (8 * i.val + k) = leByte (compressF s.operands)[i] k := by
  rw [read_obuf_compressed s (by omega), wordsView_lt _ _ _ i.isLt hk]
  rfl

/-- Settles O46: OBUF is written by `State.compressed` and by RESET alone. -/
theorem onlyCompletionPublishes : Obligations.OnlyCompletionPublishes := by
  intro s t h
  obtain ⟨-, -, e⟩ | ⟨hb, ts, e⟩ | ⟨mv, rest, ts, hp, -, e⟩ := step_cases s <;> rw [e] at h
  · obtain rfl := Host.Outcome.next.inj h
    exact .inl fun _ => rfl
  · obtain hsame | ⟨ho, rfl⟩ := engineStep_obuf h
    · exact .inl hsame
    · exact .inr (.inl ⟨hb, ho, State.compressed_status _, fun i k hk => read_obuf_compressed_word _ i hk⟩)
  · obtain hsame | ⟨rfl, hzero⟩ := hostMove_obuf h
    · exact .inl hsame
    · exact .inr (.inr ⟨rest, hp, hzero⟩)

/-! ## Instances (R40, R192) -/

/-- A step at `k` is the step of the core there, put in its place. -/
theorem stepAt_of_step {p : Platform} {k : Nat} {s t : State} (hk : p.cores[k]? = some s) (h : step s = .next t) :
    p.stepAt k = .next ⟨p.cores.set k t⟩ := by
  simp only [Platform.stepAt, hk, h]

theorem getElem?_set_core {p : Platform} {k : Nat} {s : State} (t : State) (hk : p.cores[k]? = some s) :
    (p.cores.set k t)[k]? = some t :=
  List.getElem?_set_self (List.getElem?_eq_some_iff.1 hk).1

/-- Settles O57: `stepAt` reads and writes the core at `k` alone. -/
theorem instancesShareNothing : Obligations.InstancesShareNothing := by
  intro p q k s t p' hp hq hstepAt hstep
  rw [stepAt_of_step hp hstep] at hstepAt
  obtain rfl := Host.Outcome.next.inj hstepAt
  exact ⟨getElem?_set_core t hp, fun j hj => List.getElem?_set_ne (Ne.symm hj),
    ⟨q.cores.set k t⟩, stepAt_of_step hq hstep, getElem?_set_core t hq⟩

end Sys2Proof.Proofs
end

section
/-! The obligations of spec/20_memory.md: writes are idempotent (R58), a byte of BLK inside its message word (R55), what a command sees
(R62), and what holds still while an operation is in progress (R63). -/

namespace Sys2Proof.Proofs

open Sys2Proof.Machine

/-! ## Writes are idempotent (R58) -/

/-- `mv` is the write `f` of data registers under the busy hold (R166). -/
structure IsDataWrite (mv : HostMove) (f : State → State) : Prop where
  move : ∀ s, hostMove mv s = .next (s.unlessBusy f)
  status : ∀ s, (f s).status = s.status
  twice : ∀ s, s.mem.wf = true → f (f s) = f s

/-- Every held move but ISSUE, where it has its step at all, is the write of a data register. -/
theorem exists_isDataWrite {mv : HostMove} {s t : State} (hheld : heldMove mv = true) (hissue : ∀ c, mv ≠ .issue c)
    (h : hostMove mv s = .next t) : ∃ f, IsDataWrite mv f := by
  cases mv with
  | wrIbuf i b => exact ⟨_, fun _ => rfl, fun _ => rfl, fun _ hwf => by simp only [Memory.write_twice .ibuf b hwf i.isLt]⟩
  | wrBlk j b => exact ⟨_, fun _ => rfl, fun _ => rfl, fun _ hwf => by simp only [Memory.write_twice .blk b hwf j.isLt]⟩
  | wrH i w => exact ⟨_, fun _ => rfl, fun _ => rfl, fun _ _ => by simp only [Vector.set_set]⟩
  | wrT j w => exact ⟨_, fun _ => rfl, fun _ => rfl, fun _ _ => by simp only [Vector.set_set]⟩
  | wrIlen _ | wrRounds _ | wrFlag _ => exact ⟨_, fun _ => rfl, fun _ => rfl, fun _ _ => rfl⟩
  | present bs =>
    have hlen : bs.length < 2 ^ 32 := by
      by_contra hlong
      simp only [hostMove, hostPresent, if_pos (Nat.not_lt.1 hlong)] at h
      cases h
    refine ⟨State.loadSequence bs, fun s => hostPresent_eq bs s hlen, State.loadSequence_status bs, fun s hwf => ?_⟩
    have hfits : 0 + (bs.take 213).length ≤ Space.size .ibuf := by simp [Space.size]
    simp only [State.loadSequence, Memory.writeBytes_twice .ibuf _ hwf hfits]
  | issue c => exact absurd rfl (hissue c)
  | rd _ | reset | wait | readout _ => cases hheld

/-- Settles O38: a held write is one function under the busy hold, and that function applied twice is that function. -/
theorem writesAreIdempotent : Obligations.WritesAreIdempotent := by
  intro mv s t hwf hheld hissue h
  obtain ⟨f, hf⟩ := exists_isDataWrite hheld hissue h
  rw [hf.move] at h ⊢
  obtain rfl := Host.Outcome.next.inj h
  rw [State.unlessBusy_twice (hf.status s) (hf.twice s hwf)]

/-! ## A byte of BLK and its message word (R55) -/

/-- Byte `k` of message word `i` is BLK byte `8i + k` (R124). -/
theorem leByte_messageWords (s : State) (i : Fin 16) {k : Nat} (hk : k < 8) :
    leByte (messageWords s.operands.block)[i] k = s.mem.read .blk (8 * i.val + k) := by
  have hlt : 8 * i.val + k < 128 := by omega
  rw [Fin.getElem_fin, messageWords_get _ _ i.isLt, leByte_le64 _ _ _ hk, vecView_lt _ _ hlt, State.operands_block s _ hlt]

/-- Settles O39: byte `k` of word `i` is BLK byte `8i + k`, and `8i + k = j` says `i = j / 8` and `k = j mod 8`. -/
theorem mixedWidthBlock : Obligations.MixedWidthBlock := by
  intro j b s hidle
  refine ⟨{ s with mem := s.mem.write .blk j.val b }, congrArg _ (State.unlessBusy_idle hidle), fun i k hk => ?_⟩
  have hindex : 8 * i.val + k = j.val ↔ i.val = j.val / 8 ∧ k = j.val % 8 := by omega
  show leByte _ k = if _ then b else leByte _ k
  simp only [leByte_messageWords _ i hk, Memory.read_write, true_and, hindex]

/-! ## What a command sees (R62) -/

/-- The issue of a legal code starts the operation of the command it selects (R165). -/
theorem hostIssue_legal {c : Byte} {i : Instr} {s : State} (hidle : s.busy = false) (hc : decodeCommand c = some i) :
    hostMove (.issue c) s = .next (s.startOperation (operationOf i)) := by
  simp only [hostMove, hostIssue, State.unlessBusy_idle hidle, hc]

theorem decodeCommand_of_legal {c : Byte} (hc : c = 0x01#8 ∨ c = 0x02#8) :
    decodeCommand c = some (if c = 0x01#8 then .decode else .compress) := by
  obtain rfl | rfl := hc <;> rfl

theorem instrOfOperation_operationOf {c : Byte} {i : Instr} (hc : decodeCommand c = some i) :
    instrOfOperation (operationOf i) = some i := by
  simp only [decodeCommand] at hc
  split_ifs at hc <;> obtain rfl := Option.some.inj hc <;> rfl

theorem sameInputs_startOperation (o : Operation) (s : State) (rest : List HostMove) :
    s.SameInputs (State.startOperation o { s with pending := rest }) :=
  ⟨rfl, fun _ => rfl, rfl, rfl, fun _ => rfl, rfl, rfl⟩

/-- While an operation is in progress, a host with no move to make, or a held one, has no step (R166). -/
theorem hostEnabled_eq_false {s : State} (hb : s.busy = true) (hheld : ∀ mv ∈ s.pending.head?, heldMove mv = true) :
    s.hostEnabled = false := by
  by_contra hen
  obtain ⟨mv, rest, hp, hfree⟩ := (hostEnabled_iff s hb).1 (Bool.not_eq_false _ ▸ hen)
  rw [hheld mv (by rw [hp]; rfl)] at hfree
  cases hfree

/-- Settles O43: the issue step writes OP and ST alone; then only the engine has a step, and it completes the operation. -/
theorem commandSeesEarlierWrites : Obligations.CommandSeesEarlierWrites := by
  intro c rest s hidle hp hc hheld
  have hcode := decodeCommand_of_legal hc
  generalize (if c = 0x01#8 then Instr.decode else Instr.compress) = i at hcode ⊢
  let t := State.startOperation (operationOf i) { s with pending := rest }
  have hbusy : t.busy = true := State.startOperation_busy _ _
  have hissue : step s = .next t := (step_host hidle hp).trans (hostIssue_legal hidle hcode)
  have hengine : step t = engineStep t := step_engine hbusy (hostEnabled_eq_false hbusy hheld)
  have hexec : engineStep t = exec i t := engineStep_of_op (instrOfOperation_operationOf hcode)
  obtain ⟨u, hu, hdone, -, hhost⟩ := engineStep_next (s := t) (operationOf_decodeCommand_ne_none hcode)
  exact ⟨t, u, hissue, hengine.trans hu, hexec.symm.trans hu, sameInputs_startOperation _ s rest, hdone, hhost.pending⟩

/-! ## While an operation is in progress (R63) -/

/-- The engine's step always ends the operation (R167). -/
theorem engineStep_not_busy {s t : State} (h : engineStep s = .next t) : t.busy = false := by
  obtain ⟨-, -, rfl⟩ | ⟨-, -, -, -, rfl⟩ | ⟨-, -, -, rfl⟩ | ⟨-, rfl⟩ := engineStep_cases h
  · exact State.raise_busy _ _
  · exact State.raise_busy _ _
  · exact State.completeOk_busy _
  · exact State.compressed_busy _

/-- A host move made while ST = BUSY that leaves ST = BUSY moves on the host's own fields alone (R164, R166). -/
theorem hostMove_busy {mv : HostMove} {s t : State} (hs : s.busy = true) (ht : t.busy = true) (h : hostMove mv s = .next t) :
    t = { s with pending := t.pending, received := t.received } := by
  obtain ⟨-, rfl⟩ | ⟨-, -, -, hidle, -⟩ | ⟨hidle, -⟩ | ⟨hframe, -⟩ := hostMove_cases h
  · exact absurd ht (by simp)
  · exact absurd hs (by simp [hidle])
  · exact absurd hs (by simp [hidle])
  · exact hframe

/-- Settles O44: a completion would end ST = BUSY, so the step is a host move that is not held. -/
theorem nothingChangesWhileBusy : Obligations.NothingChangesWhileBusy := by
  intro s t hs h ht
  obtain ⟨hidle, -⟩ | ⟨-, ts, e⟩ | ⟨mv, rest, ts, -, -, e⟩ := step_cases s
  · exact absurd hs (by simp [hidle])
  · exact absurd ht (by simp [engineStep_not_busy (e ▸ h)])
  · have hframe := hostMove_busy (s := { s with pending := rest, turns := ts }) hs ht (e ▸ h)
    rw [hframe]

end Sys2Proof.Proofs
end

section
/-! The obligations of spec/30_encoding.md: the commands, the frame and the result frame decode to what they encode (R70 to R82), the
items that cross the ports equal their runs of single moves (R88), and the values of STATUS (R83). -/

namespace Sys2Proof.Proofs

open Sys2Proof.Machine

/-! ## The decoder, one equation per case -/

/-- R80 (a): the length is tested first. -/
theorem decode_frame213_of_length {bs : List Byte} (h : bs.length ≠ 213) :
    decode .frame213 bs = .error (.lengthError bs.length) := if_pos h

/-- R80 (b): the flag byte is tested when the length is right. -/
theorem decode_frame213_of_flag {bs : List Byte} (hlen : bs.length = 213)
    (hflag : ¬(listView bs 212 = 0x00#8 ∨ listView bs 212 = 0x01#8)) :
    decode .frame213 bs = .error (.flagError (listView bs 212)) := by
  rw [← parseFrame_wellFormed_iff] at hflag
  simp only [decode, ne_eq, hlen, not_true_eq_false, ↓reduceIte, hflag]
  rfl

theorem decode_frame213_of_legal {bs : List Byte} (hlen : bs.length = 213)
    (hflag : listView bs 212 = 0x00#8 ∨ listView bs 212 = 0x01#8) :
    decode .frame213 bs = .ok (.frame213 (parseFrame (listView bs))) := by
  rw [← parseFrame_wellFormed_iff] at hflag
  simp only [decode, ne_eq, hlen, not_true_eq_false, ↓reduceIte, hflag]

theorem decode_result64_of_length {bs : List Byte} (h : bs.length = 64) :
    decode .result64 bs = .ok (.result64 (parseResult (listView bs))) := if_neg (not_not.2 h)

/-! ## Decoding bytes that a view lays out -/

/-- A result frame is determined by its 64 bytes: parsing sees nothing else. -/
theorem parseResult_congr {f g : Nat → Byte} (h : ∀ i, i < 64 → f i = g i) : parseResult f = parseResult g :=
  congrArg Vector.ofFn (funext fun i => le64_congr fun k hk => h _ (by omega))

theorem decode_frame213_bytesOf {f : Nat → Byte} (hflag : f 212 = 0x00#8 ∨ f 212 = 0x01#8) :
    decode .frame213 (bytesOf f 213) = .ok (.frame213 (parseFrame f)) := by
  have hview := listView_bytesOf f 213
  rw [decode_frame213_of_legal (length_bytesOf ..) (by rwa [hview 212 (by decide)]), parseFrame_congr hview]

theorem decode_frame213_bytesOf_illegal {f : Nat → Byte} (hflag : ¬(f 212 = 0x00#8 ∨ f 212 = 0x01#8)) :
    decode .frame213 (bytesOf f 213) = .error (.flagError (f 212)) := by
  have hview := listView_bytesOf f 213 212 (by decide)
  rw [decode_frame213_of_flag (length_bytesOf ..) (by rwa [hview]), hview]

theorem decode_result64_bytesOf (f : Nat → Byte) :
    decode .result64 (bytesOf f 64) = .ok (.result64 (parseResult f)) := by
  rw [decode_result64_of_length (length_bytesOf ..), parseResult_congr (listView_bytesOf f 64)]

/-! ## Decoding undoes encoding -/

theorem decode_frameBytes {x : Frame} (h : x.wellFormed = true) : decode .frame213 (frameBytes x) = .ok (.frame213 x) := by
  rw [← parseFrame_frameByte x, parseFrame_wellFormed_iff] at h
  rw [frameBytes, decode_frame213_bytesOf h, parseFrame_frameByte]

theorem decode_resultBytes (res : Vector Word 8) : decode .result64 (resultBytes res) = .ok (.result64 res) := by
  rw [resultBytes, decode_result64_bytesOf, parseResult_of_view res fun _ _ => rfl]

/-- Settles O1: a command is its code, and the two data formats parse field by field to what was laid out. -/
theorem decodeOfEncode : Obligations.DecodeOfEncode := by
  intro i hi
  cases i with
  | decode => rfl
  | compress => rfl
  | frame213 x => exact decode_frameBytes hi
  | result64 res => exact decode_resultBytes res

/-! ## Frames and five-tuples (R80, R81) -/

/-- Settles O2: laying out and parsing undo each other on 213 bytes, and so do `toFrame` and `toOperands` on legal frames. -/
theorem frameBijection : Obligations.FrameBijection := by
  refine ⟨fun x => frameBytes_eq_append x.toFrame, fun x => ?_, fun bs hlen hflag => ?_⟩
  · exact ⟨x.toFrame, decode_frameBytes (toFrame_wellFormed x), toOperands_toFrame x⟩
  · refine ⟨_, decode_frame213_of_legal hlen hflag, ?_⟩
    rw [toFrame_toOperands _ ((parseFrame_wellFormed_iff _).2 hflag)]
    exact frameBytes_parseFrame bs hlen

/-- Settles O3: the three outcomes of the decoder's two tests. -/
theorem illegalFramesExactly : Obligations.IllegalFramesExactly := fun _ =>
  ⟨decode_frame213_of_length, fun hlen h0 h1 => decode_frame213_of_flag hlen (not_or.2 ⟨h0, h1⟩),
    fun hlen hflag => ⟨_, decode_frame213_of_legal hlen hflag⟩⟩

/-! ## Command codes (R72, R73) -/

theorem decode_cmd8_of_reserved {c : Byte} (h : decodeCommand c = none) :
    decode .cmd8 [c] = .error (.reservedCommandCode c) := by
  simp only [decode, h]

/-- Settles O4: the two legal codes, and the decoder's answer to any code that is neither. -/
theorem commandCodes : Obligations.CommandCodes :=
  ⟨rfl, rfl, fun _ h1 h2 => decode_cmd8_of_reserved ((if_neg h1).trans (if_neg h2))⟩

/-! ## Items with a single bit set -/

/-- The bytes of an item whose only bit is frame bit `p`, numbered as spec/opcode_table.json numbers them. -/
def bitView (p i : Nat) : Byte := if i = p / 8 then BitVec.twoPow 8 (p % 8) else 0x00#8

theorem ofNat_shiftRight_eq_bitView (p i : Nat) : BitVec.ofNat 8 (2 ^ p >>> (8 * i)) = bitView p i := by
  apply BitVec.eq_of_getLsbD_eq
  intro k hk
  have hbit : decide (p = 8 * i + k) = (decide (i = p / 8) && decide (k = p % 8)) := by
    rw [← Bool.decide_and, decide_eq_decide]
    omega
  rw [BitVec.getLsbD_ofNat, Nat.testBit_shiftRight, Nat.testBit_two_pow, hbit, bitView]
  split
  · next hi => simp [hi, hk]
  · next hi => simp [hi]

theorem decodeTableWord_two_pow (nbits p : Nat) :
    decodeTableWord nbits (2 ^ p) = (decode (formatOfWidth nbits) (bytesOf (bitView p) (nbits / 8))).toOption := by
  have hbytes : bytesOfBits (nbits / 8) (2 ^ p) = bytesOf (bitView p) (nbits / 8) :=
    bytesOf_congr fun i _ => ofNat_shiftRight_eq_bitView p i
  rw [decodeTableWord, hbytes]
  cases decode (formatOfWidth nbits) (bytesOf (bitView p) (nbits / 8)) with
  | ok i => rfl
  | error e => rfl

theorem decodeTableWord_frame213_bit {p : Nat} (h : bitView p 212 = 0x00#8 ∨ bitView p 212 = 0x01#8) :
    decodeTableWord 1704 (2 ^ p) = some (.frame213 (parseFrame (bitView p))) :=
  (decodeTableWord_two_pow 1704 p).trans (congrArg Except.toOption (decode_frame213_bytesOf h))

theorem decodeTableWord_frame213_bit_illegal {p : Nat} (h : ¬(bitView p 212 = 0x00#8 ∨ bitView p 212 = 0x01#8)) :
    decodeTableWord 1704 (2 ^ p) = none :=
  (decodeTableWord_two_pow 1704 p).trans (congrArg Except.toOption (decode_frame213_bytesOf_illegal h))

theorem decodeTableWord_result64_bit (p : Nat) :
    decodeTableWord 512 (2 ^ p) = some (.result64 (parseResult (bitView p))) :=
  (decodeTableWord_two_pow 512 p).trans (congrArg Except.toOption (decode_result64_bytesOf (bitView p)))

/-- Settles O5: each one-bit item is its bit view, whose fields evaluate byte by byte. -/
theorem sampleWords : Obligations.SampleWords :=
  ⟨by decide, by decide, by decide,
    ⟨_, decodeTableWord_frame213_bit (by decide), by decide, by decide⟩,
    ⟨_, decodeTableWord_frame213_bit (by decide), by decide, by decide⟩,
    ⟨_, decodeTableWord_frame213_bit (by decide), by decide, by decide⟩,
    ⟨_, decodeTableWord_frame213_bit (by decide), by decide⟩,
    decodeTableWord_frame213_bit_illegal (by decide),
    ⟨_, decodeTableWord_result64_bit _, by decide, by decide⟩⟩

/-! ## Items and their runs of single moves (R88) -/

/-- `loadframe` written out as single writes is one load of the sequence. -/
theorem hostMoves_loadframe (bs : List Byte) {s : State} (h : s.busy = false) :
    hostMoves s (loadframeMoves bs) = .next (s.loadSequence bs) := by
  simp only [loadframeMoves, hostMoves, hostMove, hostWrIlen, State.unlessBusy_idle h]
  exact hostMoves_wrIbuf bs 0 { s with ilen := BitVec.ofNat 32 bs.length } h

/-- Settles O31: presenting a sequence, FRAME213 and the run of single writes are each the same load. -/
theorem frameIsLoadframe : Obligations.FrameIsLoadframe := by
  refine ⟨fun bs s hlen hidle => ?_, fun x s hidle => ?_⟩
  · rw [hostMove, hostPresent_eq bs s hlen, State.unlessBusy_idle hidle, hostMoves_loadframe bs hidle]
  · rw [execFrame213_of_idle x hidle, hostMoves_loadframe _ hidle, encode]

/-- The 64 replies of a read-out, listed by the index each read names. -/
theorem readBytes_obuf_replies (m : Memory) : (m.readBytes .obuf 0 64).map Reply.byte =
    (List.finRange 64).map fun j => .byte (m.read .obuf j.val) := by
  rw [Memory.readBytes, bytesOf, ← List.map_coe_finRange_eq_range, List.map_map, List.map_map]
  exact List.map_congr_left fun j _ => by simp only [Function.comp, Nat.zero_add]

/-- Settles O33: the run of 64 reads replies with the bytes of OBUF in the order RESULT64 does. -/
theorem resultIsReadout : Obligations.ResultIsReadout := by
  intro res s
  rw [execResult64_eq, readoutMoves, hostMoves_rdObuf, readBytes_obuf_replies]

/-- Settles O32: RESULT64 is a reply, and its j-th value is byte j of OBUF. -/
theorem resultReadOut : Obligations.ResultReadOut := by
  intro res s
  refine ⟨_, execResult64_eq res s, ?_, fun j hj => ?_⟩
  · rw [List.length_map, Memory.length_readBytes]
  · rw [readBytes_obuf_replies]
    simp [hj]

/-- Settles O34: the result frame is written to all of OBUF, reads back, and decodes as it was encoded. -/
theorem compressLeavesResultFrame : Obligations.CompressLeavesResultFrame := by
  intro s
  have hobuf : s.compressed.mem.readBytes .obuf 0 64 = resultBytes (compressF s.operands) := by
    simpa using Memory.readBytes_writeBytes s.mem .obuf 0 (resultBytes (compressF s.operands))
  exact ⟨_, execCompress_eq s, by rw [hobuf, decode_resultBytes], hobuf⟩

/-! ## STATUS (R83) -/

/-- With its reserved bits zero, STATUS is the word of its two fields. -/
theorem status_eq_statusWord {s : State} (h : s.status.extractLsb' 4 28 = 0#28) : s.status = statusWord s.err s.st := by
  have hhigh : s.status.toNat < 16 := by
    have := congrArg BitVec.toNat h
    simp only [BitVec.extractLsb'_toNat, Nat.shiftRight_eq_div_pow, BitVec.toNat_ofNat] at this
    omega
  apply BitVec.eq_of_toNat_eq
  simp only [statusWord, State.err, State.st, BitVec.toNat_setWidth, toNat_append_add, BitVec.extractLsb'_toNat,
    Nat.shiftRight_eq_div_pow]
  omega

/-- The table of R83: the field pairs that R29 admits. -/
theorem statusWord_mem_table : ∀ err st : BitVec 2, err ≠ 3#2 → (st = stCode .idle → err = 0#2) → (st = stCode .ok → err = 0#2) →
    (st = stCode .err → err = 1#2 ∨ err = 2#2) →
    statusWord err st ∈
      [0x00000000#32, 0x00000001#32, 0x00000002#32, 0x00000005#32, 0x00000007#32, 0x00000009#32, 0x0000000B#32] := by
  decide

/-- Settles O54: the invariant gives the reserved bits and the field pairs. -/
theorem statusHasSevenValues : Obligations.StatusHasSevenValues := by
  intro s hs
  rw [status_eq_statusWord hs.reserved]
  exact statusWord_mem_table s.err s.st hs.errLegal (fun h => (hs.idle h).1) hs.ok hs.failed

/-! ## A placed item is the next step (R88, R165, R167) -/

theorem step_engineNext {s : State} (h : s.busy = true) : step s.engineNext = engineStep s := by
  rw [State.engineNext]
  split
  · next hen => exact step_engine_turn (s := { s with turns := .engine :: s.turns }) h hen rfl
  · next hen => exact step_engine h (Bool.not_eq_true _ ▸ hen)

theorem step_hostNext (mv : HostMove) {s : State} (h : s.busy = false) : step (s.hostNext mv) = hostMove mv s :=
  step_host (s := s.hostNext mv) h rfl

theorem step_hostNextRead {mv : HostMove} (hmv : heldMove mv = false) (s : State) : step (s.hostNextRead mv) = hostMove mv s := by
  cases hb : s.busy with
  | false =>
    rw [step_host (s := s.hostNextRead mv) hb rfl]
    simp only [State.hostNextRead, hb]
    rfl
  | true =>
    exact step_host_turn (s := s.hostNextRead mv) hb rfl hmv (by simp only [State.hostNextRead, hb, ↓reduceIte])

theorem notBusy_busy (s : State) : s.notBusy.busy = false := by
  rw [State.notBusy]
  split
  · rw [State.not_busy_iff]
    show (s.setSt (if s.err = 0#2 then .ok else .err)).st ≠ stCode .busy
    rw [State.setSt_st]
    split <;> decide
  · next h => exact Bool.not_eq_true _ ▸ h

/-- A presented sequence that is a legal frame runs as that frame. -/
theorem hostMove_present_of_decode {bytes : List Byte} {i : Instr} (h : decode .frame213 bytes = .ok i) (s : State) :
    hostMove (.present bytes) s = exec i s := by
  obtain ⟨hlen, -⟩ := decode_frame213_ok h
  simp only [hostMove, hostPresent, if_neg (show ¬2 ^ 32 ≤ bytes.length by omega), h]

theorem hostMove_readout_of_decode {bits : List Byte} {i : Instr} (h : decode .result64 bits = .ok i) (s : State) :
    hostMove (.readout bits) s = exec i s := by
  simp only [hostMove, hostReadout, h]

theorem step_command {bytes : List Byte} {i : Instr} (h : decode .cmd8 bytes = .ok i) (s : State) :
    step (s.withFetchBytes .cmd8 bytes) = exec i (s.startOperation (operationOf i)) := by
  have hop : instrOfOperation (operationOf i) = some i := by
    obtain ⟨-, rfl⟩ | ⟨-, rfl⟩ := decode_cmd8_ok h <;> rfl
  simp only [State.withFetchBytes, h]
  rw [step_engineNext (State.startOperation_busy _ s), engineStep_of_op hop]

/-- Settles O50: a placed command is what OP names on the engine's turn; a placed frame or result frame is the host's next move, which
runs the instruction its bytes decode to. -/
theorem stepRunsDecoded : Obligations.StepRunsDecoded := by
  intro fmt bytes i s h
  cases fmt with
  | cmd8 => exact step_command h s
  | frame213 => exact (step_hostNext _ (notBusy_busy s)).trans (hostMove_present_of_decode h s.notBusy)
  | result64 => exact (step_hostNextRead rfl s).trans (hostMove_readout_of_decode h s)

end Sys2Proof.Proofs
end

section
/-! The obligations of spec/40_decode.md: the three ways a DECODE ends (R100 to R106), its repetition (R107), and that no step stops
the machine (R180). -/

namespace Sys2Proof.Proofs

open Sys2Proof.Machine

/-! ## The two errors (R101, R102) -/

/-- Settles O8: the length is checked first, and the error it raises writes STATUS, ERR_INFO and OP alone. -/
theorem decodeLengthError : Obligations.DecodeLengthError := by
  intro s hlen
  rw [execDecode_of_length hlen, State.raise_lengthError]

theorem parseFrame_not_wellFormed {f : Nat → Byte} (h0 : f 212 ≠ 0x00#8) (h1 : f 212 ≠ 0x01#8) :
    (parseFrame f).wellFormed = false := by
  rw [← Bool.not_eq_true, parseFrame_wellFormed_iff]
  exact not_or.2 ⟨h0, h1⟩

/-- Settles O9: with the length right the flag byte is checked, and the error it raises writes STATUS, ERR_INFO and OP alone. -/
theorem decodeFlagError : Obligations.DecodeFlagError := by
  intro s hlen h0 h1
  rw [execDecode_of_flag hlen (parseFrame_not_wellFormed h0 h1), State.raise_flagError]

/-! ## Success (R103, R104) -/

/-- `LE64` as a sum over the byte index (R13). -/
theorem le64_toNat_eq_sum (f : Nat → Byte) (a : Nat) :
    (le64 f a).toNat = ∑ k ∈ Finset.range 8, (f (a + k)).toNat * 2 ^ (8 * k) := by
  simp [le64_toNat, Finset.sum_range_succ]

/-- Word `i` of `h` stands at byte 4 + 8i of the frame (R76). -/
theorem parseFrame_h (f : Nat → Byte) (i : Fin 8) : (parseFrame f).h[i] = le64 f (4 + 8 * i.val) :=
  Vector.getElem_ofFn i.isLt

/-- Byte `j` of the block stands at byte 68 + j of the frame (R77). -/
theorem vecView_parseFrame_block (f : Nat → Byte) {j : Nat} (hj : j < 128) : vecView (parseFrame f).block j = f (68 + j) :=
  (vecView_lt _ _ hj).trans (Vector.getElem_ofFn hj)

/-- Word `j` of `t` stands at byte 196 + 8j of the frame (R78). -/
theorem parseFrame_t (f : Nat → Byte) (j : Fin 2) : (parseFrame f).t[j] = le64 f (196 + 8 * j.val) :=
  Vector.getElem_ofFn j.isLt

theorem read_setOperands_blk (x : Operands) (s : State) {j : Nat} (hj : j < 128) :
    (s.setOperands x).mem.read .blk j = vecView x.block j := by
  rw [State.read_setOperands, if_pos ⟨rfl, hj⟩]

/-- Writing the operand registers leaves IBUF, OBUF and all that is past the end of BLK as they were. -/
theorem read_setOperands_of_not_blk (x : Operands) (s : State) {sp : Space} {a : Nat} (h : sp ≠ .blk ∨ 128 ≤ a) :
    (s.setOperands x).mem.read sp a = s.mem.read sp a := by
  rw [State.read_setOperands, if_neg]
  rintro ⟨hsp, hlt⟩
  exact h.elim (· hsp) (Nat.not_le.2 hlt)

/-- Settles O10: the next state is `completeOk` over `setOperands` of the parsed frame; each operand is the frame's field at its
offset, and neither operation writes anything else. -/
theorem decodeSuccess : Obligations.DecodeSuccess := by
  intro s hlen hflag
  refine ⟨_, execDecode_of_legal hlen ((parseFrame_wellFormed_iff _).2 hflag), ?rounds, fun i => ?h, fun j hj => ?block,
    fun j => ?t, ?flag, State.completeOk_status _, State.completeOk_errInfo _, State.completeOk_op _, ?ilen, fun a => ?ibuf,
    fun a => ?obuf, fun a ha => ?blk, ⟨?_, ?_, ?_⟩, ⟨?_, ?_, ?_⟩⟩
  case rounds =>
    rw [State.completeOk_rounds, State.setOperands_rounds]
    exact be32_toNat _ 0
  case h =>
    rw [State.completeOk_h, State.setOperands_h, ← le64_toNat_eq_sum]
    exact congrArg BitVec.toNat (parseFrame_h _ i)
  case block =>
    rw [State.completeOk_mem, read_setOperands_blk _ _ hj]
    exact vecView_parseFrame_block _ hj
  case t =>
    rw [State.completeOk_t, State.setOperands_t, ← le64_toNat_eq_sum]
    exact congrArg BitVec.toNat (parseFrame_t _ j)
  case flag =>
    rw [State.completeOk_flag, State.setOperands_flag]
    exact beq_iff_eq
  case ibuf => rw [State.completeOk_mem, read_setOperands_of_not_blk _ _ (.inl (by decide))]
  case obuf => rw [State.completeOk_mem, read_setOperands_of_not_blk _ _ (.inl (by decide))]
  case blk => rw [State.completeOk_mem, read_setOperands_of_not_blk _ _ (.inr ha)]
  all_goals simp

/-! ## DECODE is total and repeats (R106, R107) -/

/-- Settles O11: each of DECODE's three ways is a completion, told apart by the STATUS it writes. -/
theorem decodeTotal : Obligations.DecodeTotal := by
  intro s
  obtain ⟨-, e⟩ | ⟨-, -, -, e⟩ | ⟨-, -, e⟩ := execDecode_cases s
  · exact ⟨_, e, State.raise_op _ _, State.raise_busy _ _, .inr (.inl (by simp [State.raise_lengthError]))⟩
  · exact ⟨_, e, State.raise_op _ _, State.raise_busy _ _, .inr (.inr (by simp [State.raise_flagError]))⟩
  · exact ⟨_, e, State.completeOk_op _, State.completeOk_busy _, .inl ⟨State.completeOk_status _, State.completeOk_errInfo _⟩⟩

/-- DECODE reads ILEN and IBUF and writes neither. -/
theorem execDecode_keeps_input {s t : State} (h : exec .decode s = .next t) :
    t.ilen = s.ilen ∧ ∀ i, t.mem.read .ibuf i = s.mem.read .ibuf i := by
  obtain ⟨-, e⟩ | ⟨-, -, -, e⟩ | ⟨-, -, e⟩ := execDecode_cases s <;> obtain rfl := Host.Outcome.next.inj (e.symm.trans h)
  · exact ⟨rfl, fun _ => rfl⟩
  · exact ⟨rfl, fun _ => rfl⟩
  · refine ⟨by simp, fun i => ?_⟩
    rw [State.completeOk_mem, read_setOperands_of_not_blk _ _ (.inl (by decide))]

/-- A DECODE that does not succeed writes no operand register (R105). -/
theorem execDecode_keeps_operands_of_error {s t : State} (h : exec .decode s = .next t) (herr : t.status ≠ 0x00000002#32) :
    t.operands = s.operands := by
  obtain ⟨-, e⟩ | ⟨-, -, -, e⟩ | ⟨-, -, e⟩ := execDecode_cases s <;> obtain rfl := Host.Outcome.next.inj (e.symm.trans h)
  · rfl
  · rfl
  · exact absurd (State.completeOk_status _) herr

/-- Settles O13: the first DECODE keeps the input, so the second decides the same way (`decodePurity`); on success it writes the same
operands, and on an error it writes none. -/
theorem decodeRepeats : Obligations.DecodeRepeats := by
  intro s
  obtain ⟨t, ht, -⟩ := decodeTotal s
  obtain ⟨hilen, hibuf⟩ := execDecode_keeps_input ht
  obtain ⟨t', u, ht', hu, hstatus, herrInfo, hoperands⟩ := decodePurity s t hilen.symm fun _ i _ => (hibuf i).symm
  obtain rfl : t = t' := Host.Outcome.next.inj (ht.symm.trans ht')
  refine ⟨t, u, ht, hu, hstatus.symm, herrInfo.symm, ?_, hilen, hibuf⟩
  by_cases hok : t.status = 0x00000002#32
  · exact (hoperands hok).symm
  · exact execDecode_keeps_operands_of_error hu (hstatus ▸ hok)

/-! ## No step stops the machine (R170, R180) -/

/-- A host move leaves the moves after it as they are, or is a WAIT that stays the next one (R168). -/
theorem hostMove_pending {mv : HostMove} {s t : State} (h : hostMove mv s = .next t) :
    t.pending = s.pending ∨ t.pending = .wait :: s.pending := by
  obtain ⟨-, rfl⟩ | ⟨c, i, -, -, -, rfl⟩ | ⟨-, -, ht, -, -⟩ | ⟨-, hp | ⟨-, hp⟩⟩ := hostMove_cases h
  · exact .inl rfl
  · exact .inl rfl
  · exact .inl (by rw [ht])
  · exact .inl hp
  · exact .inr hp

theorem hostWellFormed_congr {s t : State} (h : t.pending = s.pending) : t.hostWellFormed = s.hostWellFormed := by
  rw [State.hostWellFormed, State.hostWellFormed, h]

theorem hostMove_keeps_hostWellFormed {mv : HostMove} {s t : State} (h : hostMove mv s = .next t) (hs : s.hostWellFormed = true) :
    t.hostWellFormed = true := by
  obtain hp | hp := hostMove_pending h
  · exact (hostWellFormed_congr hp).trans hs
  · rw [State.hostWellFormed, hp, List.all_cons, Bool.and_eq_true]
    exact ⟨rfl, hs⟩

theorem hostWellFormed_cons {s : State} {mv : HostMove} {rest : List HostMove} (hp : s.pending = mv :: rest)
    (h : s.hostWellFormed = true) : mv.wellFormed = true ∧ rest.all HostMove.wellFormed = true := by
  rwa [State.hostWellFormed, hp, List.all_cons, Bool.and_eq_true] at h

/-- Settles O55: with ST = BUSY the invariant gives the engine an operation, which completes; a well-formed host move has its step. -/
theorem stepNeverStops : Obligations.StepNeverStops := by
  intro s hs hhost
  obtain ⟨-, -, e⟩ | ⟨hb, ts, e⟩ | ⟨mv, rest, ts, hp, -, e⟩ := step_cases s <;> rw [e]
  · exact ⟨s, rfl, hhost⟩
  · have hop : s.op ≠ .none := mt hs.opIdle.1 (by simp [hb])
    obtain ⟨t, ht, -, -, hsame⟩ := engineStep_next (s := { s with turns := ts }) hop
    exact ⟨t, ht, (hostWellFormed_congr hsame.pending).trans hhost⟩
  · obtain ⟨hmv, hrest⟩ := hostWellFormed_cons hp hhost
    obtain ⟨t, ht⟩ := hostMove_next mv { s with pending := rest, turns := ts } hmv
    exact ⟨t, ht, hostMove_keeps_hostWellFormed ht hrest⟩

end Sys2Proof.Proofs
end

section
/-! The obligations of spec/41_compress.md: the constant tables (R122, R123), the parts of F (R124 to R130), and the COMPRESS
operation (R120, R121, R131, R137, R138). -/

namespace Sys2Proof.Proofs

open Sys2Proof.Machine

/-! ## The constant tables (R122, R123) -/

/-- Settles O25: the two square bounds, evaluated for each of the eight words of IV. -/
theorem initializationVector : Obligations.InitializationVector := by
  unfold Obligations.InitializationVector
  decide

/-- Settles O26: the count of each index in each row of SIGMA, evaluated. -/
theorem scheduleRowsArePermutations : Obligations.ScheduleRowsArePermutations := by
  unfold Obligations.ScheduleRowsArePermutations
  decide

/-! ## The message words and the initialised working vector (R124, R125) -/

/-- Settles O17: the sum of R13 at byte 8i of the block's view, which there is the block. -/
theorem messageSplit : Obligations.MessageSplit := by
  intro block i
  rw [Fin.getElem_fin, messageWords_get _ _ i.isLt, le64_toNat_eq_sum, Finset.sum_range]
  exact Finset.sum_congr rfl fun k _ => by rw [vecView_lt _ _ (by omega)]

/-- The first half of the initialised working vector is H (R125). -/
theorem initV_h (x : Operands) (i : Fin 8) : (initV x)[i.val] = x.h[i] := by
  fin_cases i <;> rfl

/-- Words 8 to 11 of the initialised working vector are the first four of IV (R125). -/
theorem initV_iv (x : Operands) (k : Fin 4) : (initV x)[k.val + 8] = IV[k.val] := by
  fin_cases k <;> rfl

/-- Settles O18: the initialised vector read word by word; V[14] is IV[6], or IV[6] XOR ALL_ONES, as R125 prints them. -/
theorem workVectorInit : Obligations.WorkVectorInit := by
  intro x
  have hflag : IV[6] ^^^ ALL_ONES = 0xe07c265404be4294#64 := by decide
  refine ⟨initV_h x, fun k => ?_, rfl, rfl, ?_, rfl⟩
  · simpa only [Nat.add_comm] using initV_iv x k
  · rw [← hflag]
    rfl

/-! ## The mixing primitive and the steps of a round (R126, R127, R135, R139) -/

/-- Settles O19: each word that G leaves, at the four indices and at every other. -/
theorem mixingPrimitive : Obligations.MixingPrimitive := by
  intro a b c d x y v hab hac had hbc hbd hcd
  have hget := mixG_get a b c d x y v hab hac had hbc hbd hcd
  refine ⟨?_, ?_, ?_, ?_, fun k hka hkb hkc hkd => ?_⟩ <;> rw [hget]
  · exact if_pos rfl
  · rw [if_neg hab.symm, if_pos rfl]
  · rw [if_neg hac.symm, if_neg hbc.symm, if_pos rfl]
  · rw [if_neg had.symm, if_neg hbd.symm, if_neg hcd.symm, if_pos rfl]
  · rw [if_neg hka, if_neg hkb, if_neg hkc, if_neg hkd]

/-- Settles O20: `mixRound` is the column step and then the diagonal step, four applications each, in the order of R126. -/
theorem roundIsEightMixings : Obligations.RoundIsEightMixings := fun _ _ _ => rfl

theorem mixG_commute {a b c d a' b' c' d' : Fin 16} (x y x' y' : Word) (h : [a, b, c, d, a', b', c', d'].Nodup) :
    Function.Commute (mixG a b c d x y) (mixG a' b' c' d' x' y') :=
  fun v => mixG_comm a b c d a' b' c' d' x y x' y' v h

/-- Maps that commute two by two may be applied in any order. -/
theorem foldl_apply_perm {gs hs : List (WorkVec → WorkVec)} (hperm : gs.Perm hs) (hcomm : hs.Pairwise Function.Commute)
    (v : WorkVec) : gs.foldl (fun w g => g w) v = hs.foldl (fun w g => g w) v := by
  have hsymm : Std.Symm (Function.Commute (α := WorkVec)) := ⟨fun _ _ h => h.symm⟩
  have hall : ∀ f ∈ hs, ∀ g ∈ hs, Function.Commute f g :=
    fun _ hf _ hg => hcomm.forall_of_forall (fun f _ => Function.Commute.refl f) hf hg
  exact (hperm.symm.foldl_eq' (fun f hf g hg w => hall g hg f hf w) v).symm

theorem pairwise_commute_four {f g h k : WorkVec → WorkVec} (hfg : Function.Commute f g) (hfh : Function.Commute f h)
    (hfk : Function.Commute f k) (hgh : Function.Commute g h) (hgk : Function.Commute g k) (hhk : Function.Commute h k) :
    [f, g, h, k].Pairwise Function.Commute := by
  simp [hfg, hfh, hfk, hgh, hgk, hhk]

/-- The four columns share no word, so the applications of G on them commute (R139). -/
theorem columns_pairwise_commute (m : Vector Word 16) (s : Vector (Fin 16) 16) :
    [mixG 0 4 8 12 m[s[0]] m[s[1]], mixG 1 5 9 13 m[s[2]] m[s[3]], mixG 2 6 10 14 m[s[4]] m[s[5]],
      mixG 3 7 11 15 m[s[6]] m[s[7]]].Pairwise Function.Commute := by
  apply pairwise_commute_four <;> exact mixG_commute _ _ _ _ (by decide)

/-- The four diagonals share no word, so the applications of G on them commute (R139). -/
theorem diagonals_pairwise_commute (m : Vector Word 16) (s : Vector (Fin 16) 16) :
    [mixG 0 5 10 15 m[s[8]] m[s[9]], mixG 1 6 11 12 m[s[10]] m[s[11]], mixG 2 7 8 13 m[s[12]] m[s[13]],
      mixG 3 4 9 14 m[s[14]] m[s[15]]].Pairwise Function.Commute := by
  apply pairwise_commute_four <;> exact mixG_commute _ _ _ _ (by decide)

/-- Settles O22: within each step the four applications commute two by two, so any order gives what the step's own order gives. -/
theorem quadruplesCommute : Obligations.QuadruplesCommute := fun m s v =>
  ⟨fun _ hgs => foldl_apply_perm hgs (columns_pairwise_commute m s) v,
    fun _ hgs => foldl_apply_perm hgs (diagonals_pairwise_commute m s) v⟩

theorem finite_workVec : Finite WorkVec :=
  have : Finite Word := .of_injective BitVec.toFin fun _ _ => BitVec.eq_of_toFin_eq
  .of_injective (fun (v : WorkVec) (k : Fin 16) => v[k]) fun _ _ h => workVec_ext (congrFun h)

/-- G loses nothing and its domain is finite, so G is a bijection (R135). -/
theorem mixG_bijective {a b c d : Fin 16} (x y : Word) (h : [a, b, c, d].Nodup) : Function.Bijective (mixG a b c d x y) := by
  have := finite_workVec
  simp only [List.nodup_cons, List.mem_cons, not_or, List.not_mem_nil] at h
  obtain ⟨⟨hab, hac, had, -⟩, ⟨hbc, hbd, -⟩, ⟨hcd, -⟩, -⟩ := h
  exact Finite.injective_iff_bijective.1 (mixG_injective a b c d x y hab hac had hbc hbd hcd)

theorem columnStep_bijective (m : Vector Word 16) (s : Vector (Fin 16) 16) : Function.Bijective (columnStep m s) :=
  (mixG_bijective _ _ (by decide)).comp <| (mixG_bijective _ _ (by decide)).comp <|
    (mixG_bijective _ _ (by decide)).comp (mixG_bijective _ _ (by decide))

theorem diagonalStep_bijective (m : Vector Word 16) (s : Vector (Fin 16) 16) : Function.Bijective (diagonalStep m s) :=
  (mixG_bijective _ _ (by decide)).comp <| (mixG_bijective _ _ (by decide)).comp <|
    (mixG_bijective _ _ (by decide)).comp (mixG_bijective _ _ (by decide))

theorem mixRound_bijective (m : Vector Word 16) (r : Nat) : Function.Bijective (mixRound m r) :=
  (diagonalStep_bijective m _).comp (columnStep_bijective m _)

/-- Settles O23: a round is composed of eight bijections G, and `n` rounds, by induction on `n`, of `n` bijections. -/
theorem roundsAreBijections : Obligations.RoundsAreBijections := by
  intro m
  refine ⟨mixRound_bijective m, fun n => ?_⟩
  induction n with
  | zero => exact Function.bijective_id
  | succ n ih => exact (mixRound_bijective m n).comp ih

/-! ## The round loop (R130) -/

/-- Settles O21: the loop by its recursion, and a schedule that sees the round index modulo ten alone. -/
theorem scheduleWraps : Obligations.ScheduleWraps := by
  refine ⟨mixRounds_zero, mixRounds_succ, fun m v r k => ?_, schedule_add 9 0, schedule_add 0 1, schedule_add 1 1,
    schedule_add 4 429496729⟩
  rw [mixRound, mixRound, schedule_add]

/-! ## The result words (R128, R131, R135) -/

/-- Result word `i` is `H[i] XOR V[i] XOR V[i+8]`, V being what the rounds leave (R128). -/
theorem compressF_get (x : Operands) (i : Fin 8) :
    (compressF x)[i] = x.h[i] ^^^ (finalV x)[i.val] ^^^ (finalV x)[i.val + 8] :=
  finalXor_get x.h (finalV x) i.val i.isLt

/-- Without rounds H cancels, and result word `i` is V[i+8] as it was initialised (R131). -/
theorem compressF_of_zero_rounds {x : Operands} (h : x.rounds = 0#32) (i : Fin 8) : (compressF x)[i] = (initV x)[i.val + 8] := by
  have hfinal : finalV x = initV x := by rw [finalV, h, BitVec.toNat_zero, mixRounds_zero]
  rw [compressF_get, hfinal, initV_h, BitVec.xor_self, BitVec.zero_xor]

/-- FLAG reaches no word of the initialised vector but V[14] (R125). -/
theorem initV_flag (x : Operands) (f g : Bool) {i : Fin 8} (hi : i ≠ 6) :
    (initV { x with flag := f })[i.val + 8] = (initV { x with flag := g })[i.val + 8] :=
  match i, hi with
  | 0, _ | 1, _ | 2, _ | 3, _ | 4, _ | 5, _ | 7, _ => rfl
  | 6, hi => absurd rfl hi

/-- Settles O24: without rounds the result is V[8..16) as initialised, where FLAG complements V[14] alone. -/
theorem flagAtZeroRounds : Obligations.FlagAtZeroRounds := by
  intro x hrounds
  have hget (f : Bool) : ∀ i : Fin 8, (compressF { x with flag := f })[i] = (initV { x with flag := f })[i.val + 8] :=
    compressF_of_zero_rounds hrounds
  refine ⟨fun i hi => ?_, ?_⟩
  · rw [hget, hget, initV_flag x true false hi]
  · calc (compressF { x with flag := true })[6]
      _ = IV[6] ^^^ ALL_ONES := hget true 6
      _ = ~~~IV[6] := xor_allOnes _
      _ = ~~~(compressF { x with flag := false })[6] := congrArg _ (hget false 6).symm

/-! ## The COMPRESS operation (R121, R129, R131, R137) -/

/-- Settles O14: the next state is `State.compressed`, whose OBUF holds the words of F, and which keeps the inputs and the host. -/
theorem compressResult : Obligations.CompressResult := by
  intro s
  refine ⟨s.compressed, execCompress_eq s, fun i k hk => ?word, State.compressed_status s, State.compressed_errInfo s,
    State.compressed_op s, fun a ha => ?obuf, ⟨?_, fun i => ?ibuf, ?_, ?_, fun j => ?blk, ?_, ?_⟩, ⟨?_, ?_, ?_⟩⟩
  case word =>
    rw [read_obuf_compressed_word s i hk, compressF_get]
    rfl
  case obuf => rw [State.read_compressed, if_neg fun h => Nat.not_lt.2 ha h.2]
  case ibuf => rw [State.read_compressed, if_neg fun h => nomatch h.1]
  case blk => rw [State.read_compressed, if_neg fun h => nomatch h.1]
  all_goals simp

/-- Word `i` of the result frame, as OBUF holds it after a COMPRESS (R129). -/
theorem le64_obuf_compressed (s : State) (i : Fin 8) :
    le64 (s.compressed.mem.read .obuf) (8 * i.val) = (compressF s.operands)[i] :=
  le64_leByte _ _ _ fun _ hk => read_obuf_compressed_word s i hk

/-- Settles O16: OBUF holds the words of F, which without rounds are V[8..16) as initialised. -/
theorem zeroRounds : Obligations.ZeroRounds := by
  intro s hrounds
  have hword (i : Fin 8) : le64 (s.compressed.mem.read .obuf) (8 * i.val) = (initV s.operands)[i.val + 8] :=
    (le64_obuf_compressed s i).trans (compressF_of_zero_rounds hrounds i)
  refine ⟨s.compressed, execCompress_eq s, fun i => (hword (i.castLE (by decide))).trans (initV_iv s.operands i), hword 4,
    hword 5, (hword 6).trans ?_, hword 7⟩
  show (if s.flag then IV[6] ^^^ ALL_ONES else IV[6]) = _
  cases s.flag <;> rfl

/-! ## COMPRESS stepped one round at a time (R138) -/

/-- The state after `n` round steps of a COMPRESS on `s`. -/
def afterRounds (s : State) (n : Nat) : State :=
  { s with
    m := messageWords s.operands.block
    v := mixRounds (messageWords s.operands.block) (initV s.operands) n
    r := BitVec.ofNat 32 n }

/-- R counts the rounds and does not wrap up to 2^32 - 1 of them (R34). -/
theorem fineRounds_fineStart (s : State) {n : Nat} (h : n < 2 ^ 32) : s.fineStart.fineRounds n = afterRounds s n := by
  induction n with
  | zero => rfl
  | succ n ih =>
    have hr : (afterRounds s n).r.toNat = n := Nat.mod_eq_of_lt (by omega)
    rw [State.fineRounds, ih (by omega), State.fineRound, hr]
    simp only [afterRounds, mixRounds_succ, BitVec.ofNat_add]

/-- Publishing after the last round gives the state of the single completion step (R137). -/
theorem finePublish_afterRounds (s : State) : (afterRounds s s.rounds.toNat).finePublish = s.compressed := by
  simp only [State.finePublish, State.compressed, afterRounds, compressF, finalV, State.operands_rounds, State.operands_h,
    BitVec.ofNat_toNat, BitVec.setWidth_eq]

/-- Settles O27: the state after each round step is `afterRounds`, which differs from `s` in M, V and R alone. -/
theorem fineSteppingAgrees : Obligations.FineSteppingAgrees := by
  intro s
  have hlt : s.rounds.toNat < 2 ^ 32 := s.rounds.isLt
  refine ⟨?_, fun n hn => ?_⟩
  · rw [fineRounds_fineStart s hlt, finePublish_afterRounds, execCompress_eq]
  · rw [fineRounds_fineStart s (by omega)]
    exact ⟨Nat.mod_eq_of_lt (by omega), rfl⟩

end Sys2Proof.Proofs
end

section
/-! The obligations of spec/42_host_ports.md: the host's writes (R161 to R163), its reads and WAIT (R164, R168), ISSUE (R165), the busy
hold (R166), what no host move writes (R160), and the two paths to COMPRESS (R171). -/

namespace Sys2Proof.Proofs

open Sys2Proof.Machine

/-! ## The frame path and the typed path (R171) -/

/-- What FRAME213 puts in IBUF is the frame presented. -/
theorem parseFrame_loadSequence_frameBytes (x : Frame) (s : State) :
    parseFrame ((s.loadSequence (frameBytes x)).mem.read .ibuf) = x := by
  refine (parseFrame_congr fun i hi => ?_).trans (parseFrame_frameBytes x)
  rw [State.read_loadSequence, if_pos ⟨rfl, hi, by rwa [length_frameBytes]⟩]

/-- DECODE of a presented five-tuple succeeds and writes the five-tuple. -/
theorem execDecode_loadSequence_toFrame (x : Operands) (s : State) :
    exec .decode (s.loadSequence (frameBytes x.toFrame)) =
      .next ((s.loadSequence (frameBytes x.toFrame)).setOperands x).completeOk := by
  have hlen : (s.loadSequence (frameBytes x.toFrame)).ilen = 213#32 := by
    rw [State.loadSequence_ilen, length_frameBytes]
  have hframe := parseFrame_loadSequence_frameBytes x.toFrame s
  rw [execDecode_of_legal hlen (by rw [hframe, toFrame_wellFormed]), hframe, toOperands_toFrame]

/-! `setargs`, move by move (R88, R163). -/

/-- With nothing in progress a move under the busy hold is what it holds. -/
theorem hostMove_of_idle {mv : HostMove} {f : State → State} {s : State} (hmove : hostMove mv s = .next (s.unlessBusy f))
    (hidle : s.busy = false) : hostMove mv s = .next (f s) := by
  rw [hmove, State.unlessBusy_idle hidle]

theorem hostMoves_cons_of_next {mv : HostMove} {s t : State} (h : hostMove mv s = .next t) (l : List HostMove) :
    hostMoves s (mv :: l) = hostMoves t l := by
  simp only [hostMoves, h]

theorem hostMoves_append_of_next {l : List HostMove} {s t : State} (h : hostMoves s l = .next t) (l' : List HostMove) :
    hostMoves s (l ++ l') = hostMoves t l' := by
  simp only [hostMoves_append, h]

theorem hostMoves_wrH_all (w : Vector Word 8) {s : State} (h : s.busy = false) :
    hostMoves s ((List.finRange 8).map fun i => .wrH i w[i]) = .next { s with h := w } := by
  rw [hostMoves_wrH _ (fun i => w[i]) s h, foldl_set_all s.h w _ fun _ => rfl]

/-- The 128 WR_BLK moves of `setargs` write the memory alone, and BLK then holds the block. -/
theorem hostMoves_wrBlk_all (block : Vector Byte 128) {s : State} (h : s.busy = false) :
    ∃ m : Memory, hostMoves s ((List.finRange 128).map fun j => .wrBlk j block[j]) = .next { s with mem := m }
      ∧ ∀ j : Fin 128, m.read .blk j.val = block[j] := by
  refine ⟨_, hostMoves_wrBlk _ (fun j => block[j]) s h, fun j => ?_⟩
  rw [read_foldl_write _ (fun j => block[j]), if_pos (List.mem_finRange j)]

/-- Writing both words of T leaves the words written. -/
theorem set_zero_set_one (v w : Vector Word 2) : (v.set 0 w[0]).set 1 w[1] = w := by
  ext1 i hi
  obtain rfl | rfl : i = 0 ∨ i = 1 := by omega
  all_goals simp

theorem hostMoves_wrT_wrFlag (t : Vector Word 2) (b : Bool) {s : State} (h : s.busy = false) :
    hostMoves s [.wrT 0 t[0], .wrT 1 t[1], .wrFlag b] = .next { s with t := t, flag := b } := by
  rw [hostMoves_cons_of_next (hostMove_of_idle rfl h), hostMoves_cons_of_next (hostMove_of_idle rfl (by exact h)),
    hostMoves_cons_of_next (hostMove_of_idle rfl (by exact h)), hostMoves]
  simp only [Fin.coe_ofNat_eq_mod, Nat.reduceMod, set_zero_set_one]

/-- The operand registers of a state that holds each of the five (R110). -/
theorem operands_eq_of_fields {s : State} {x : Operands} (hrounds : s.rounds = x.rounds) (hh : s.h = x.h)
    (hblock : ∀ j : Fin 128, s.mem.read .blk j.val = x.block[j]) (ht : s.t = x.t) (hflag : s.flag = x.flag) :
    s.operands = x := by
  calc s.operands
    _ = (s.setOperands x).operands := State.operands_congr hrounds hh (fun j hj => ?_) ht hflag
    _ = x := State.setOperands_operands x s
  rw [read_setOperands_blk x s hj, vecView_lt _ _ hj]
  exact hblock ⟨j, hj⟩

/-- `setargs` with nothing in progress completes with the five-tuple in the operand registers. -/
theorem hostMoves_setargs (x : Operands) {s : State} (h : s.busy = false) :
    ∃ t, hostMoves s (setargsMoves x) = .next t ∧ t.operands = x := by
  let s₁ : State := { s with rounds := x.rounds }
  let s₂ : State := { s₁ with h := x.h }
  have hrounds : hostMove (.wrRounds x.rounds) s = .next s₁ :=
    hostMove_of_idle (f := fun s => { s with rounds := x.rounds }) rfl h
  have hh : hostMoves s₁ _ = .next s₂ := hostMoves_wrH_all x.h h
  obtain ⟨m, hblk, hblock⟩ := hostMoves_wrBlk_all x.block (s := s₂) h
  refine ⟨{ s₂ with mem := m, t := x.t, flag := x.flag }, ?_, operands_eq_of_fields rfl rfl hblock rfl rfl⟩
  rw [setargsMoves, List.append_assoc, List.cons_append, hostMoves_cons_of_next hrounds, hostMoves_append_of_next hh,
    hostMoves_append_of_next hblk]
  exact hostMoves_wrT_wrFlag x.t x.flag h

/-- Settles O36: both paths put the five-tuple in the operand registers, and COMPRESS reads nothing else (`compressPurity`). -/
theorem twoPathsAgree : Obligations.TwoPathsAgree := by
  intro x s hidle
  let a := s.loadSequence (frameBytes x.toFrame)
  let b := (a.setOperands x).completeOk
  have hb : b.operands = x := by rw [completeOk_operands, State.setOperands_operands]
  obtain ⟨d, hsetargs, hd⟩ := hostMoves_setargs x hidle
  obtain ⟨e, c, -, he, hc, -, hobuf, -⟩ := compressPurity d b (hd.trans hb.symm)
  exact ⟨a, b, c, d, e, execFrame213_of_idle _ hidle, execDecode_loadSequence_toFrame x s, hc, hsetargs, he,
    State.completeOk_status _, hb, hd, hobuf⟩

/-! ## The busy hold (R166) -/

/-- A held move that is a move at all leaves the state as it was while ST = BUSY. -/
theorem hostMove_of_held {mv : HostMove} {s : State} (hb : s.busy = true) (hheld : heldMove mv = true)
    (hwf : mv.wellFormed = true) : hostMove mv s = .next s := by
  obtain ⟨t, ht⟩ := hostMove_next mv s hwf
  obtain rfl := hostMove_held hheld hb ht
  exact ht

/-- With nothing in progress the host's next move is enabled, held or not. -/
theorem hostEnabled_of_idle {s : State} {mv : HostMove} {rest : List HostMove} (hidle : s.busy = false)
    (hp : s.pending = mv :: rest) : s.hostEnabled = true := by
  simp [State.hostEnabled, hp, hidle]

/-- Settles O42: the held host has no step, so the engine completes, and its completion keeps the host's list of moves. -/
theorem busyHold : Obligations.BusyHold := by
  intro mv rest s hb hop hp hheld
  have hhost : s.hostEnabled = false := hostEnabled_eq_false hb (by simpa [hp] using hheld)
  obtain ⟨t, ht, hidle, -, hsame⟩ := engineStep_next hop
  have hpending : t.pending = mv :: rest := hsame.pending.trans hp
  exact ⟨t, (step_engine hb hhost).trans ht, ht, hpending, hidle, hostEnabled_of_idle hidle hpending⟩

/-- Settles O30: FRAME213 is its load under the busy hold. -/
theorem frameHeldWhileBusy : Obligations.FrameHeldWhileBusy := fun x _ => execFrame213_of_busy x

/-! ## The host's writes (R161 to R163) -/

/-- One element read after one element is written (R57). -/
theorem getElem_set_element {n : Nat} (v : Vector Word n) (i k : Fin n) (w : Word) :
    (v.set i.val w)[k] = if k = i then w else v[k] := by
  simp only [Fin.getElem_fin, Vector.getElem_set, Fin.ext_iff, eq_comm]

/-- Settles O37: with nothing in progress each write is one record update; under the busy hold it is none. -/
theorem hostWrites : Obligations.HostWrites := by
  refine fun s => ⟨fun hidle => ?_, fun hb => ?_⟩
  · exact ⟨fun i b => ⟨_, hostMove_of_idle rfl hidle, rfl, fun sp a => Memory.read_write s.mem .ibuf sp i.val a b⟩,
      fun n => hostMove_of_idle (f := fun s => { s with ilen := n }) rfl hidle,
      fun n => hostMove_of_idle (f := fun s => { s with rounds := n }) rfl hidle,
      fun i w => ⟨_, hostMove_of_idle rfl hidle, rfl, fun k => getElem_set_element s.h i k w⟩,
      fun j b => ⟨_, hostMove_of_idle rfl hidle, rfl, fun sp a => Memory.read_write s.mem .blk sp j.val a b⟩,
      fun j w => ⟨_, hostMove_of_idle rfl hidle, rfl, fun k => getElem_set_element s.t j k w⟩,
      fun b => hostMove_of_idle (f := fun s => { s with flag := b }) rfl hidle⟩
  · refine ⟨?_, ?_, ?_, ?_, ?_, ?_, ?_⟩ <;> intros <;> exact hostMove_of_held hb rfl rfl

/-! ## ISSUE (R165) -/

/-- The issue of a reserved code changes nothing (R73). -/
theorem hostIssue_reserved {c : Byte} {s : State} (hidle : s.busy = false) (hc : decodeCommand c = none) :
    hostMove (.issue c) s = .next s := by
  simp only [hostMove, hostIssue, State.unlessBusy_idle hidle, hc]

/-- Settles O41: a legal code starts its operation, which writes OP and ST alone; a reserved code, or the hold, changes nothing. -/
theorem commandIssue : Obligations.CommandIssue := by
  intro c s
  refine ⟨fun hidle hc => ?_, fun hidle h1 h2 => ?_, fun hb => hostMove_of_held hb rfl rfl⟩
  · have hop : operationOf (if c = 0x01#8 then .decode else .compress) = if c = 0x01#8 then .decode else .compress :=
      apply_ite operationOf ..
    refine ⟨_, hostIssue_legal hidle (decodeCommand_of_legal hc), ?_, State.startOperation_st _ s, State.startOperation_upper _ s⟩
    rw [hop]
    rfl
  · exact hostIssue_reserved hidle ((if_neg h1).trans (if_neg h2))

/-! ## Reads and WAIT (R164, R168) -/

/-- A read looks at the registers alone, not at the host's own fields. -/
theorem readPort_withHost (p : ReadPort) (s : State) (pending : List HostMove) (turns : List Agent) :
    State.readPort { s with pending := pending, turns := turns } p = s.readPort p := by
  cases p <;> rfl

/-- A read, with the moves after it still to make, changes what the host has received alone. -/
theorem hostMove_rd (p : ReadPort) (s : State) (rest : List HostMove) (ts : List Agent) :
    hostMove (.rd p) { s with pending := rest, turns := ts } =
      .next { s with pending := rest, turns := ts, received := s.received ++ [s.readPort p] } := by
  simp only [hostMove, hostRd, State.reply, readPort_withHost]

/-- Settles O40: a read is never held, so it is the step on the host's turn and whenever nothing is in progress. -/
theorem hostReads : Obligations.HostReads := by
  refine ⟨fun p rest ts s hp hb ht => ?_, fun p rest s hp hidle => ?_, fun s => ?_⟩
  · rw [step_host_turn hb hp rfl ht, hostMove_rd]
  · exact (step_host hidle hp).trans (hostMove_rd p s rest s.turns)
  · exact ⟨fun _ => rfl, rfl, rfl, fun _ => rfl, fun _ => rfl, fun _ => rfl, rfl, fun _ => rfl, rfl, rfl⟩

/-- With nothing in progress a poll of WAIT is one RD_STATUS. -/
theorem hostMove_wait_of_idle {s : State} (h : s.busy = false) : hostMove .wait s = hostMove (.rd .status) s := by
  simp only [hostMove, hostWait, h]
  rfl

/-- While ST = BUSY a poll of WAIT is one RD_STATUS, and WAIT stays the next move. -/
theorem hostMove_wait_of_busy {s : State} (h : s.busy = true) :
    hostMove .wait s = .next { s with pending := .wait :: s.pending, received := s.received ++ [.u32 s.status] } := by
  simp only [hostMove, hostWait, h]
  rfl

/-- The values of ST other than BUSY and IDLE are OK and ERR (R29). -/
theorem st_ok_or_err : ∀ st : BitVec 2, st ≠ stCode .busy → st ≠ 0#2 → st = 2#2 ∨ st = 3#2 := by decide

/-- Settles O49: WAIT is never held; each step of it is one poll, whose reply is the STATUS that `busy` reads. -/
theorem waitPolls : Obligations.WaitPolls := by
  refine fun rest s hp => ⟨fun hidle => ?_, fun ts hb ht => ?_⟩
  · have hst : s.st ≠ stCode .busy := (State.not_busy_iff s).1 hidle
    refine ⟨?_, hst, st_ok_or_err s.st hst⟩
    rw [step_host hidle hp, hostMove_wait_of_idle (by exact hidle)]
    exact hostMove_rd .status s rest s.turns
  · refine ⟨?_, (State.busy_iff s).1 hb⟩
    rw [step_host_turn hb hp rfl ht, hostMove_wait_of_busy (by exact hb), ← hp]

/-! ## What no host move writes (R160) -/

/-- Settles O45: of the four things a host move can do, RESET is excluded, and ISSUE alone writes OP and, in STATUS, the field ST. -/
theorem hostCannotWriteResults : Obligations.HostCannotWriteResults := by
  intro mv s t hmv h
  obtain ⟨hreset, -⟩ | ⟨c, i, hissue, -, -, rfl⟩ | ⟨-, -, ht, hobuf, -⟩ | ⟨ht, -⟩ := hostMove_cases h
  · exact absurd hreset hmv
  · exact ⟨fun _ => rfl, rfl, State.startOperation_err _ s, ⟨rfl, rfl, rfl⟩, fun hne => absurd hissue (hne c)⟩
  · refine ⟨hobuf, ?_⟩
    rw [ht]
    exact ⟨rfl, rfl, ⟨rfl, rfl, rfl⟩, fun _ => ⟨rfl, rfl⟩⟩
  · rw [ht]
    exact ⟨fun _ => rfl, rfl, rfl, ⟨rfl, rfl, rfl⟩, fun _ => ⟨rfl, rfl⟩⟩

end Sys2Proof.Proofs
end

section
/-! The obligations of spec/70_reset_and_hazards.md: a RESET while an operation is in progress (R200, R201), stale operands after a
failed DECODE (R206), chaining by the host (R207), and that every operation completes (R209). -/

namespace Sys2Proof.Proofs

open Sys2Proof.Machine

/-! ## RESET while ST = BUSY (R201) -/

/-- Settles O48: RESET is never held, so on the host's turn the step leaves the reset registers (`resetRegisters`), whose STATUS is not
BUSY: the next move is then enabled, held or not. -/
theorem resetAbandonsOperation : Obligations.ResetAbandonsOperation := by
  intro mv rest ts s hb hp hturn
  obtain ⟨t, ht, hmem, -, hrounds, hh, hT, hflag, hstatus, -, hop, hhost⟩ :=
    resetRegisters { s with pending := mv :: rest, turns := ts }
  have hidle : t.busy = false := State.busy_congr (s' := State.reset) hstatus
  have hst : t.st = 0#2 := congrArg (BitVec.extractLsb' 0 2) hstatus
  exact ⟨t, (step_host_turn hb hp rfl hturn).trans ht, hidle, hop, hst, hmem .obuf, hrounds, hh, hmem .blk, hT, hflag,
    hostEnabled_of_idle hidle hhost.pending, step_host hidle hhost.pending⟩

/-! ## Stale operands (R206) -/

/-- ST = ERR is not the STATUS of a success (R83). -/
theorem status_ne_ok_of_st_err {s : State} (h : s.st = 3#2) : s.status ≠ 0x00000002#32 := fun hok => by
  rw [State.st, hok] at h
  exact absurd h (by decide)

/-- Settles O28: a DECODE that ends with ST = ERR writes no operand register, and COMPRESS reads nothing else (`compressPurity`). -/
theorem staleOperandsAfterError : Obligations.StaleOperandsAfterError := by
  intro s t ht hst
  have hops : t.operands = s.operands := execDecode_keeps_operands_of_error ht (status_ne_ok_of_st_err hst)
  refine ⟨_, _, execCompress_eq t, execCompress_eq s, State.compressed_status t, State.compressed_errInfo t, fun j hj => ?_,
    (State.compressed_operands t).trans hops⟩
  rw [read_obuf_compressed t hj, read_obuf_compressed s hj, hops]

/-! ## Chaining by the host (R207) -/

/-- Reading a buffer in `n` pieces of eight bytes is reading it once. -/
theorem flatMap_readBytes (m : Memory) (sp : Space) (n : Nat) :
    ((List.range n).flatMap fun i => m.readBytes sp (8 * i) 8) = m.readBytes sp 0 (8 * n) := by
  induction n with
  | zero => rfl
  | succ n ih =>
    rw [List.range_succ, List.flatMap_append, ih, List.flatMap_singleton, Nat.mul_succ]
    simp only [Memory.readBytes, bytesOf_add, Nat.zero_add]

/-- The reads of `chain` hand back OBUF in ascending order. -/
theorem flatMap_readBytes_obuf (m : Memory) :
    ((List.finRange 8).flatMap fun i => m.readBytes .obuf (8 * i.val) 8) = m.readBytes .obuf 0 64 := by
  rw [← flatMap_readBytes m .obuf 8, ← List.map_coe_finRange_eq_range, List.flatMap_map]

/-- The word that `chain` writes to H[i], assembled from the bytes its reads hand back, is result word `i` (R129). -/
theorem le64_readBytes_obuf_compressed (s : State) (i : Fin 8) :
    le64 (listView (s.compressed.mem.readBytes .obuf 0 64)) (8 * i.val) = (compressF s.operands)[i] := by
  refine (le64_congr fun k hk => ?_).trans (le64_obuf_compressed s i)
  rw [Memory.readBytes, listView_bytesOf _ _ _ (by omega), Nat.zero_add]

/-- Settles O35: COMPRESS keeps H and is done, so each word of `chain` replies with its eight bytes of OBUF and writes its word of H. -/
theorem chainingByTheHost : Obligations.ChainingByTheHost := by
  intro s
  refine ⟨_, _, execCompress_eq s, State.compressed_h s, ?_, rfl⟩
  rw [chainMoves, hostMoves_chain _ _ _ (State.compressed_busy s), flatMap_readBytes_obuf,
    foldl_set_all _ _ _ (le64_readBytes_obuf_compressed s)]

/-! ## Every operation completes (R209) -/

/-- The registers of `s` with the host agent of `x`. -/
def withHostOf (s x : State) : State := { s with pending := x.pending, received := x.received, turns := x.turns }

@[simp] theorem withHostOf_mem (s x : State) : (withHostOf s x).mem = s.mem := rfl

theorem withHostOf_withHostOf (s x y : State) : withHostOf (withHostOf s x) y = withHostOf s y := rfl

theorem setOperands_withHostOf (o : Operands) (s x : State) :
    (withHostOf s x).setOperands o = withHostOf (s.setOperands o) x := rfl

theorem completeOk_withHostOf (s x : State) : (withHostOf s x).completeOk = withHostOf s.completeOk x := rfl

/-- DECODE neither reads nor writes the host agent. -/
theorem execDecode_withHostOf {s u : State} (x : State) (h : exec .decode s = .next u) :
    exec .decode (withHostOf s x) = .next (withHostOf u x) := by
  obtain ⟨hlen, e⟩ | ⟨hlen, h0, h1, e⟩ | ⟨hlen, hflag, e⟩ := execDecode_cases s <;>
    obtain rfl := Host.Outcome.next.inj (e.symm.trans h)
  · exact execDecode_of_length (s := withHostOf s x) hlen
  · exact execDecode_of_flag (s := withHostOf s x) hlen (parseFrame_not_wellFormed h0 h1)
  · rw [execDecode_of_legal (s := withHostOf s x) hlen ((parseFrame_wellFormed_iff _).2 hflag), setOperands_withHostOf,
      completeOk_withHostOf, withHostOf_mem]

theorem compressed_withHostOf (s x : State) : (withHostOf s x).compressed = withHostOf s.compressed x := by
  simp only [State.compressed, State.completeOk, State.setOutcome, withHostOf, State.operands]

/-- The completion step of an operation neither reads nor writes the host agent (R140, R167). -/
theorem exec_withHostOf {o : Operation} {i : Instr} {s u : State} (x : State) (hi : instrOfOperation o = some i)
    (h : exec i s = .next u) : exec i (withHostOf s x) = .next (withHostOf u x) := by
  cases o with
  | none => cases hi
  | decode =>
    obtain rfl := Option.some.inj hi
    exact execDecode_withHostOf x h
  | compress =>
    obtain rfl := Option.some.inj hi
    obtain rfl := Host.Outcome.next.inj ((execCompress_eq s).symm.trans h)
    rw [execCompress_eq, compressed_withHostOf]

/-- While ST = BUSY the step is the engine's, or it uses up a turn of the host, who makes a move that is not held. -/
theorem step_busy_cases {s : State} (hb : s.busy = true) :
    (∃ ts, step s = engineStep { s with turns := ts })
    ∨ ∃ mv rest ts, s.pending = mv :: rest ∧ s.turns = .host :: ts
        ∧ step s = hostMove mv { s with pending := rest, turns := ts } := by
  cases hen : s.hostEnabled with
  | false => exact .inl ⟨s.turns, step_engine hb hen⟩
  | true =>
    match ht : s.turns with
    | [] => exact .inl ⟨s.turns, step_engine_last hb ht⟩
    | .engine :: ts => exact .inl ⟨ts, step_engine_turn hb hen ht⟩
    | .host :: ts =>
      obtain ⟨mv, rest, hp, hfree⟩ := (hostEnabled_iff s hb).1 hen
      exact .inr ⟨mv, rest, ts, hp, rfl, step_host_turn hb hp hfree ht⟩

/-- While ST = BUSY a move other than RESET moves on the host's own fields alone (R164, R166). -/
theorem hostMove_busy_of_ne_reset {mv : HostMove} {s t : State} (hb : s.busy = true) (hmv : mv ≠ .reset)
    (h : hostMove mv s = .next t) : t = { s with pending := t.pending, received := t.received } := by
  obtain ⟨hreset, -⟩ | ⟨-, -, -, hidle, -⟩ | ⟨hidle, -⟩ | ⟨hframe, -⟩ := hostMove_cases h
  · exact absurd hreset hmv
  · exact absurd hb (by simp [hidle])
  · exact absurd hb (by simp [hidle])
  · exact hframe

/-- A host without a RESET among its moves has none after a move. -/
theorem hostMove_keeps_no_reset {mv : HostMove} {s t : State} (h : hostMove mv s = .next t)
    (hs : ∀ mv' ∈ s.pending, mv' ≠ .reset) : ∀ mv' ∈ t.pending, mv' ≠ .reset := by
  obtain hp | hp := hostMove_pending h <;> rw [hp]
  · exact hs
  · exact List.forall_mem_cons.2 ⟨HostMove.noConfusion, hs⟩

theorem runSteps_succ_of_step {s t : State} (h : step s = .next t) (n : Nat) : runSteps (n + 1) s = runSteps n t := by
  simp only [runSteps, h]

/-- What holds while an operation whose completion step gives the registers of `u` is in progress, with a host that makes no RESET. -/
structure InProgress (i : Instr) (u s : State) : Prop where
  busy : s.busy = true
  op : instrOfOperation s.op = some i
  result : exec i s = .next (withHostOf u s)
  wellFormed : s.hostWellFormed = true
  noReset : ∀ mv ∈ s.pending, mv ≠ .reset

/-- The completion step gives the registers of `u` whatever the host has done meanwhile. -/
theorem InProgress.exec_withHostOf {i : Instr} {u s : State} (hs : InProgress i u s) (x : State) :
    exec i (withHostOf s x) = .next (withHostOf u x) := by
  rw [Proofs.exec_withHostOf x hs.op hs.result, withHostOf_withHostOf]

/-- A step with an operation in progress completes it with the registers of `u`, or uses up a turn and leaves it in progress. -/
theorem InProgress.step {i : Instr} {u s : State} (hs : InProgress i u s) :
    ∃ t, step s = .next t
      ∧ (t.busy = false ∧ t = withHostOf u t ∨ InProgress i u t ∧ s.turns.length = t.turns.length + 1) := by
  obtain ⟨ts, e⟩ | ⟨mv, rest, ts, hp, hturns, e⟩ := step_busy_cases hs.busy
  · let s₁ : State := { s with turns := ts }
    have ht : engineStep s₁ = .next (withHostOf u s₁) :=
      (engineStep_of_op (s := withHostOf s s₁) hs.op).trans (hs.exec_withHostOf s₁)
    exact ⟨_, e.trans ht, .inl ⟨engineStep_not_busy ht, rfl⟩⟩
  · let s₁ : State := { s with pending := rest, turns := ts }
    obtain ⟨hmvwf, hrest⟩ := hostWellFormed_cons hp hs.wellFormed
    obtain ⟨hmv, hnoReset⟩ := List.forall_mem_cons.1 (hp ▸ hs.noReset)
    obtain ⟨t, ht⟩ := hostMove_next mv s₁ hmvwf
    have hframe : t = { s₁ with pending := t.pending, received := t.received } :=
      hostMove_busy_of_ne_reset (s := s₁) hs.busy hmv ht
    have hturns' : t.turns = ts := by rw [hframe]
    have hsame : t = withHostOf s t := by rw [withHostOf, hturns']; exact hframe
    refine ⟨t, e.trans ht, .inr ⟨⟨?busy, ?op, ?result, hostMove_keeps_hostWellFormed ht hrest,
      hostMove_keeps_no_reset ht hnoReset⟩, by rw [hturns, hturns', List.length_cons]⟩⟩
    case busy => rw [hsame]; exact hs.busy
    case op => rw [hsame]; exact hs.op
    case result => rw [hsame]; exact hs.exec_withHostOf t

/-- An operation in progress completes within its turns and one step more, by recursion on the turns left. -/
theorem InProgress.completes {i : Instr} {u s : State} (hs : InProgress i u s) :
    ∃ n t, n ≤ s.turns.length + 1 ∧ runSteps n s = .next t ∧ t.busy = false ∧ t = withHostOf u t := by
  obtain ⟨t, e, hdone | ⟨ht, hturns⟩⟩ := hs.step
  · exact ⟨1, t, by omega, runSteps_succ_of_step e 0, hdone⟩
  · obtain ⟨n, t', hn, hrun, hdone⟩ := ht.completes
    exact ⟨n + 1, t', by omega, (runSteps_succ_of_step e n).trans hrun, hdone⟩
termination_by s.turns.length
decreasing_by omega

/-- Settles O56: the completion step from the start has an outcome, and `InProgress` carries its registers to the step that completes. -/
theorem operationCompletes : Obligations.OperationCompletes := by
  intro s hb hop hwf hnoReset
  obtain ⟨u, hu, -, -, hhost⟩ := engineStep_next hop
  obtain ⟨i, hi⟩ : ∃ i, instrOfOperation s.op = some i := by
    cases ho : s.op with
    | none => exact absurd ho hop
    | decode | compress => exact ⟨_, rfl⟩
  have hexec : exec i s = .next u := (engineStep_of_op hi).symm.trans hu
  obtain ⟨n, t, hn, hrun, hdone, ht⟩ := InProgress.completes ⟨hb, hi, exec_withHostOf s hi hexec, hwf, hnoReset⟩
  exact ⟨n, i, t, u, hn, hi, hexec, hrun, hdone, ht⟩

end Sys2Proof.Proofs
end
